-- ==== Sys2Proof/Word.lean ====
section
/-! DEFINITION. The word types of SFCORE: bytes, the 64-bit command and response words, frequencies, the STATUS
register and bit strings (00_scope.md R7, R8; 30_encoding.md R70, R74). -/

namespace Sys2Proof

/-- A symbol or a data byte: "an integer 0..255" (R8). -/
abbrev Byte := BitVec 8

/-- A command word or a response word (R70, R74). -/
abbrev Word := BitVec 64

/-- A frequency count, FREQ_W = 32 bits unsigned (R7). -/
abbrev Freq := BitVec 32

/-- The DATA field of a response and every RDREG value (R31, R74). -/
abbrev Data := BitVec 32

/-- The STATUS register (R21). -/
abbrev Status := BitVec 16

/-- A bit string, first bit first; `true` is the bit 1 (R8). -/
abbrev Bits := List Bool

end Sys2Proof
end

