-- ==== Sys2Proof/Syntax.lean ====
section
/-! DEFINITION. The commands of SFCORE, one constructor per row of spec/opcode_table.json (30_encoding.md R72). -/

namespace Sys2Proof

/-- A command with its operands: A is an unsigned byte, F an unsigned 32-bit value (R71). -/
inductive Instr where
  /-- NOP (R175). -/
  | nop
  /-- CLEAR (R176). -/
  | clear
  /-- RDREG index (R177). -/
  | rdreg (index : Byte)
  /-- SYMPUSH symbol, frequency (R101). -/
  | sympush (sym : Byte) (freq : Freq)
  /-- BUILD (R103). -/
  | build
  /-- EXTRACT (R108). -/
  | extract
  /-- PACK (R120). -/
  | pack
  /-- UNPACK (R123). -/
  | unpack
  /-- BITCLR (R125). -/
  | bitclr
  /-- SER (R135). -/
  | ser
  /-- DESER (R140). -/
  | deser
  /-- INPUSH byte (R139). -/
  | inpush (byte : Byte)
  /-- OUTPOP (R146). -/
  | outpop
  /-- ENC symbol (R160). -/
  | enc (sym : Byte)
  /-- DEC (R162). -/
  | dec
deriving DecidableEq, Repr

end Sys2Proof
end

