-- ==== Sys2Proof/WellFormed.lean ====
section
/-! DEFINITION. Which commands are well formed. Every operand range of R71 is the range of the operand's type, so the
one check left is RDREG's register index: 0..10 are the registers of R31, 11..255 are reserved. An ill-formed RDREG
has an encoding and a meaning all the same: it raises BadCommand(BAD_REG_INDEX) (44_control.md R177; log 16). -/

namespace Sys2Proof

/-- "a valid RDREG (index ≤ 10)" (R189), and every other command. -/
def Instr.wellFormed : Instr → Bool
  | .rdreg index => decide (index.toNat ≤ 10)
  | .nop => true
  | .clear => true
  | .sympush _ _ => true
  | .build => true
  | .extract => true
  | .pack => true
  | .unpack => true
  | .bitclr => true
  | .ser => true
  | .deser => true
  | .inpush _ => true
  | .outpop => true
  | .enc _ => true
  | .dec => true

end Sys2Proof
end

