-- ==== Sys2Proof/Decode.lean ====
section
/-! DEFINITION. Decoding a 64-bit command word, total and rejecting by name (30_encoding.md R70 to R73, R75), the
encoder (R72, R78), and the byte order of the words on a byte-wide link (20_memory.md R55). -/

namespace Sys2Proof

/-- Why a word is no command: the two decode errors of R75, in the order they are checked. -/
inductive Reject where
  /-- OP is not in the opcode map (R73). -/
  | reservedOpcode
  /-- a must-be-zero field is non-zero (R73). -/
  | reservedField
deriving DecidableEq, Repr

/-! ### The fields of a command word (R70) -/

/-- OP = w[63:56]. -/
def opField (w : Word) : Byte := w.extractLsb' 56 8

/-- A = w[55:48]. -/
def aField (w : Word) : Byte := w.extractLsb' 48 8

/-- RSV = w[47:32]. -/
def rsvField (w : Word) : BitVec 16 := w.extractLsb' 32 16

/-- F = w[31:0]. -/
def fField (w : Word) : Freq := w.extractLsb' 0 32

/-- The row of the opcode map R72 for an opcode: whether A and F are operands, and the command they make. -/
def opRow (op a : Byte) (f : Freq) : Option (Bool × Bool × Instr) :=
  match op.toNat with
  | 0x00 => some (false, false, .nop)
  | 0x01 => some (false, false, .clear)
  | 0x02 => some (true, false, .rdreg a)
  | 0x10 => some (true, true, .sympush a f)
  | 0x11 => some (false, false, .build)
  | 0x12 => some (false, false, .extract)
  | 0x20 => some (false, false, .pack)
  | 0x21 => some (false, false, .unpack)
  | 0x22 => some (false, false, .bitclr)
  | 0x30 => some (false, false, .ser)
  | 0x31 => some (false, false, .deser)
  | 0x32 => some (true, false, .inpush a)
  | 0x33 => some (false, false, .outpop)
  | 0x40 => some (true, false, .enc a)
  | 0x41 => some (false, false, .dec)
  | _ => none

/-- The must-be-zero fields of R73: RSV always, A and F where they are no operand. -/
def fieldsZero (useA useF : Bool) (w : Word) : Bool :=
  rsvField w == 0 && (useA || aField w == 0) && (useF || fField w == 0)

/-- R75: the opcode is looked up first, the must-be-zero fields are checked after it. -/
def decode (w : Word) : Except Reject Instr :=
  match opRow (opField w) (aField w) (fField w) with
  | none => .error .reservedOpcode
  | some (useA, useF, i) => if fieldsZero useA useF w then .ok i else .error .reservedField

/-! ### The encoder -/

/-- The opcode of a command (R72). -/
def opcode : Instr → Byte
  | .nop => 0x00
  | .clear => 0x01
  | .rdreg _ => 0x02
  | .sympush _ _ => 0x10
  | .build => 0x11
  | .extract => 0x12
  | .pack => 0x20
  | .unpack => 0x21
  | .bitclr => 0x22
  | .ser => 0x30
  | .deser => 0x31
  | .inpush _ => 0x32
  | .outpop => 0x33
  | .enc _ => 0x40
  | .dec => 0x41

/-- The A field of a command: its byte operand, or 0 (R70). -/
def aOperand : Instr → Byte
  | .rdreg index => index
  | .sympush sym _ => sym
  | .inpush byte => byte
  | .enc sym => sym
  | .nop => 0
  | .clear => 0
  | .build => 0
  | .extract => 0
  | .pack => 0
  | .unpack => 0
  | .bitclr => 0
  | .ser => 0
  | .deser => 0
  | .outpop => 0
  | .dec => 0

/-- The F field of a command: SYMPUSH's frequency, or 0 (R70). -/
def fOperand : Instr → Freq
  | .sympush _ freq => freq
  | .nop => 0
  | .clear => 0
  | .rdreg _ => 0
  | .build => 0
  | .extract => 0
  | .pack => 0
  | .unpack => 0
  | .bitclr => 0
  | .ser => 0
  | .deser => 0
  | .inpush _ => 0
  | .outpop => 0
  | .enc _ => 0
  | .dec => 0

/-- The word with the given fields and RSV = 0 (R70). -/
def wordOf (op a : Byte) (f : Freq) : Word := op ++ a ++ 0#16 ++ f

/-- The command word of a command (R72, R78). -/
def encode (i : Instr) : Word := wordOf (opcode i) (aOperand i) (fOperand i)

/-! ### Carrying a word over a byte-wide link (R55: most significant byte first) -/

/-- The eight bytes of a word in link order. -/
def linkBytes (w : Word) : List Byte :=
  [w.extractLsb' 56 8, w.extractLsb' 48 8, w.extractLsb' 40 8, w.extractLsb' 32 8,
    w.extractLsb' 24 8, w.extractLsb' 16 8, w.extractLsb' 8 8, w.extractLsb' 0 8]

/-- The word of eight bytes in link order; any other number of bytes is no word (R77). -/
def ofLinkBytes : List Byte → Option Word
  | [b7, b6, b5, b4, b3, b2, b1, b0] => some (b7 ++ b6 ++ b5 ++ b4 ++ b3 ++ b2 ++ b1 ++ b0)
  | _ => none

/-! ### The host's view of the opcode table -/

/-- The command the decoder reads from the word `w` of `nbits` bits, numbered as the opcode table numbers them; the
bits above `nbits` are 0. -/
def decodeTableWord (nbits w : Nat) : Option Instr :=
  match decode (BitVec.ofNat 64 (w % 2 ^ nbits)) with
  | .ok i => some i
  | .error _ => none

end Sys2Proof
end

