-- ==== Sys2Proof/Config.lean ====
section
/-! DEFINITION. The implementation parameters the spec leaves OPEN (00_scope.md R7, 92_eei_decisions.md D2, D6).
DESIGN CHOICE (log 1): the three capacities are a record of naturals that `State.cfg` carries unchanged, so that a
statement about every state is a statement about every capacity. -/

namespace Sys2Proof

/-- IN_CAP, OUT_CAP (bytes) and BIT_CAP (bits) of R7. -/
structure Config where
  inCap  : Nat
  outCap : Nat
  bitCap : Nat
deriving DecidableEq, Repr

/-- The ranges R7 gives the parameters: `3 ≤ IN_CAP, OUT_CAP ≤ 2^32 − 1` and `255 ≤ BIT_CAP ≤ 2^32 − 9`. -/
abbrev Config.Legal (c : Config) : Prop :=
  (3 ≤ c.inCap ∧ c.inCap ≤ 2 ^ 32 - 1) ∧ (3 ≤ c.outCap ∧ c.outCap ≤ 2 ^ 32 - 1) ∧
    (255 ≤ c.bitCap ∧ c.bitCap ≤ 2 ^ 32 - 9)

/-- DESIGN CHOICE (log 1): the capacities 95_test_vectors.md uses "unless a vector says otherwise". -/
def Config.standard : Config := { inCap := 4096, outCap := 4096, bitCap := 65536 }

/-- The platform parameter SFCORE_BASE: OPEN, and "no rule of this spec depends on it" (R60; log 2). -/
opaque Config.sfcoreBase : Nat

end Sys2Proof
end

