-- ==== Sys2Proof/Machine/State.lean ====
section
/-! DEFINITION. The state of SFCORE as plain data (10_state.md R20 to R36), the error causes (60_exceptions.md R186),
what the host does (00_scope.md R6, R12; 70_reset_and_hazards.md R210, R213) and the state after reset (R36). -/

namespace Sys2Proof.Machine

/-- A value of the spec's `Option Tree` (00_scope.md R10), flattened into one type so that it is plain data with a
plain induction (log 7): `null` is `none`, and every child of a Node is again an `Option Tree`. -/
inductive CodeTree where
  /-- `none`: "no tree (null root)", or a null child. -/
  | null
  /-- `some (Leaf sym)`. -/
  | leaf (sym : Byte)
  /-- `some (Node(l, r))`; `l` is the child on the bit 0. -/
  | node (l r : CodeTree)
deriving DecidableEq, Repr

/-- An entry of SYMLIST (R22). -/
structure SymEntry where
  sym  : Byte
  freq : Freq
deriving DecidableEq, Repr

/-- An entry of CTAB (R24). -/
structure CodeEntry where
  sym  : Byte
  code : Bits
deriving DecidableEq, Repr

/-- The error causes of R186, in the table's order. -/
inductive Cause where
  | truncHeader
  | emptyPad
  | emptyTrailing
  | countRange
  | padRange
  | truncEntry
  | zeroLen
  | truncCode
  | codeWide
  | dupSym
  | prefixConflict
  | padExceeds
  | unpackPadExceeds
  | streamNullChild
  | streamEndMidPath
  | encNoEntry
  | symDup
  | symUnsorted
  | noTree
  | noTable
  | noPacked
  | serEmptyWithBits
  | serRange
  | inFull
  | outFull
  | bitsFull
  | reservedOpcode
  | reservedField
  | badRegIndex
deriving DecidableEq, Repr

/-- One thing the host or the platform does, at a command boundary. -/
inductive HostEvent where
  /-- issue a command word after the response to the previous one (R6). -/
  | command (w : Word)
  /-- the platform asserts reset (R210). -/
  | reset
  /-- issue a command word before the response to the previous one, which breaks a duty of R6 (R213). -/
  | overlapped (w : Word)
deriving DecidableEq, Repr

/-- The reasons a command can stop. The spec's errors are no faults: they are next states (R188). -/
inductive Fault where
  /-- Raised by BUILD when the recursion of R102 does not end on SYMLIST because a split leaves its right part empty.
  R105 shows that no SYMLIST the block holds does that, so no run reaches it. Safe (log 8). -/
  | buildDoesNotEnd
  /-- Raised by DEC when CTAB has no decode tree. R143 calls DecodeTree "total on every CTAB the block holds", so no
  run reaches it. Safe (log 9). -/
  | noDecodeTree
deriving DecidableEq, Repr

/-- The reasons the model gives no meaning. -/
inductive Refusal where
  /-- An instruction without a meaning yet, named by its mnemonic; raised by `exec` alone. Safe. -/
  | notModelled (mnemonic : String)
  /-- A command issued before the response to the previous one: "This spec gives that case no meaning, so a model
  refuses it" (R213); raised by `step`. Safe (log 5). -/
  | overlappedCommand
deriving DecidableEq, Repr

/-- The record of 10_state.md R20, and three fields of the model's own at the end. -/
structure State where
  /-- STATUS[0], the sticky error flag (R29). -/
  err       : Bool
  /-- STATUS[3:1], the error class (R29). -/
  eclass    : BitVec 3
  /-- STATUS[11:4], the error cause (R29). -/
  ecause    : BitVec 8
  /-- STATUS[12], tree valid (R30). -/
  tv        : Bool
  /-- STATUS[13], code table valid (R30). -/
  cv        : Bool
  /-- STATUS[14], packed buffer valid (R30). -/
  pv        : Bool
  /-- SYMLIST, in push order (R22). -/
  symlist   : List SymEntry
  /-- TREE (R23). -/
  tree      : CodeTree
  /-- CTAB, in entry order (R24). -/
  ctab      : List CodeEntry
  /-- BITSEQ, first bit first (R25). -/
  bitseq    : Bits
  /-- PACKBUF (R26). -/
  packbuf   : List Byte
  /-- PAD (R26). -/
  pad       : Byte
  /-- IN, in file order (R27, R51). -/
  inbuf     : List Byte
  /-- OUT, in file order (R28, R51). -/
  outbuf    : List Byte
  /-- OUTPOS (R28). -/
  outpos    : BitVec 32
  /-- MODEL's own home of the parameters IN_CAP, OUT_CAP and BIT_CAP (R7); nothing changes it (log 1). -/
  cfg       : Config
  /-- MODEL's own: what the host will do, oldest first (R6, R12; log 3). -/
  events    : List HostEvent
  /-- MODEL's own: the response words returned so far, oldest first (R12, R74; log 4). -/
  responses : List Word
deriving DecidableEq, Repr

/-- What executing a command answers. -/
abbrev Result := Host.Outcome State Fault Refusal

/-- The reset state of R36 for a block with the given capacities. -/
def State.resetWith (c : Config) : State where
  err := false
  eclass := 0
  ecause := 0
  tv := false
  cv := false
  pv := false
  symlist := []
  tree := .null
  ctab := []
  bitseq := []
  packbuf := []
  pad := 0
  inbuf := []
  outbuf := []
  outpos := 0
  cfg := c
  events := []
  responses := []

/-- The machine right after reset (R36, R210), with the capacities of log 1, nothing issued and nothing returned. -/
def State.reset : State := State.resetWith Config.standard

end Sys2Proof.Machine
end

