-- ==== Sys2Proof/Machine/Operands.lean ====
section
/-! DEFINITION. The conversions of 00_scope.md R9 between bits, bytes and numbers, and the measurements of trees and
code tables that RDREG reports (10_state.md R31). -/

namespace Sys2Proof.Machine

/-! ### Conversions (R9) -/

/-- `msbBits(x)`: the bits of a byte, bit 7 first. -/
def msbBits (x : Byte) : Bits :=
  [x.getLsbD 7, x.getLsbD 6, x.getLsbD 5, x.getLsbD 4, x.getLsbD 3, x.getLsbD 2, x.getLsbD 1, x.getLsbD 0]

/-- `val(c)`: a bit string read as a binary numeral, first bit most significant. -/
def val (c : Bits) : Nat := c.foldl (fun acc b => 2 * acc + b.toNat) 0

/-- `byteOf(b)` of a string of 8 bits; on 8 bits the sum of R9 is `val`. -/
def byteOf (b : Bits) : Byte := BitVec.ofNat 8 (val b)

/-- `bitsN(v, N)`: the `N` low bits of `v`, most significant first. -/
def bitsN (v : Nat) : Nat → Bits
  | 0 => []
  | n + 1 => v.testBit n :: bitsN v n

/-- `BE_m(v)`: `m` bytes, most significant first (R9; the reading of "big-endian" is G1, log 13). -/
def beBytes (v : Nat) : Nat → List Byte
  | 0 => []
  | m + 1 => BitVec.ofNat 8 (v / 256 ^ m) :: beBytes v m

/-- `unBE(bs)` (R9). -/
def unBE (bs : List Byte) : Nat := bs.foldl (fun acc b => 256 * acc + b.toNat) 0

/-- `ceil8(L)`: the bytes that hold `L` bits (R9). -/
def ceil8 (n : Nat) : Nat := (n + 7) / 8

/-! ### Trees (R10) -/

/-- The symbols on the leaves, left to right. -/
def leaves : CodeTree → List Byte
  | .null => []
  | .leaf s => [s]
  | .node l r => leaves l ++ leaves r

/-- The length of the longest path. -/
def depth : CodeTree → Nat
  | .null => 0
  | .leaf _ => 0
  | .node l r => max (depth l) (depth r) + 1

/-- The child of a Node on a bit: left on 0, right on 1 (R163). A leaf and a null tree have none. -/
def child (b : Bool) : CodeTree → CodeTree
  | .node l r => if b then r else l
  | .leaf _ => .null
  | .null => .null

/-- The root kind of TREEINFO: 0 none, 1 Leaf, 2 Node (R31). -/
def rootKind : CodeTree → BitVec 2
  | .null => 0
  | .leaf _ => 1
  | .node _ _ => 2

/-- The symbol field of TREEINFO: "the root leaf's symbol when the kind is 1, else 0" (R31). -/
def rootSym : CodeTree → Byte
  | .leaf s => s
  | .null => 0
  | .node _ _ => 0

/-- TREEINFO: [31:16] number of leaves, [15:8] root symbol, [7:2] zero, [1:0] root kind (R31). -/
def treeInfo (t : CodeTree) : Data :=
  BitVec.ofNat 16 (leaves t).length ++ rootSym t ++ 0#6 ++ rootKind t

/-! ### Code tables (R24) -/

/-- MAXLEN: the largest code length, 0 on the empty table (R31). -/
def maxLen : List CodeEntry → Nat
  | [] => 0
  | e :: es => max e.code.length (maxLen es)

/-- symbol_to_code: the entry of a symbol (R24). The first of several, which no reachable table has (log 20). -/
def lookupCode (sym : Byte) (ct : List CodeEntry) : Option Bits :=
  match ct with
  | [] => none
  | e :: es => if e.sym = sym then some e.code else lookupCode sym es

end Sys2Proof.Machine
end

