-- ==== Sys2Proof/Machine/Flags.lean ====
section
/-! DEFINITION. The codes of the error causes (60_exceptions.md R185, R186), the STATUS register (10_state.md R21), the
response word (30_encoding.md R74) and the RDREG map (10_state.md R31). -/

namespace Sys2Proof.Machine

/-- ECLASS of a cause: 1 MalformedContainer, 2 UnknownSymbol, 3 Precondition, 4 Capacity, 5 BadCommand (R185, R186). -/
def causeClass : Cause → BitVec 3
  | .truncHeader => 1
  | .emptyPad => 1
  | .emptyTrailing => 1
  | .countRange => 1
  | .padRange => 1
  | .truncEntry => 1
  | .zeroLen => 1
  | .truncCode => 1
  | .codeWide => 1
  | .dupSym => 1
  | .prefixConflict => 1
  | .padExceeds => 1
  | .unpackPadExceeds => 1
  | .streamNullChild => 1
  | .streamEndMidPath => 1
  | .encNoEntry => 2
  | .symDup => 3
  | .symUnsorted => 3
  | .noTree => 3
  | .noTable => 3
  | .noPacked => 3
  | .serEmptyWithBits => 3
  | .serRange => 3
  | .inFull => 4
  | .outFull => 4
  | .bitsFull => 4
  | .reservedOpcode => 5
  | .reservedField => 5
  | .badRegIndex => 5

/-- ECAUSE of a cause (R186). -/
def causeCode : Cause → BitVec 8
  | .truncHeader => 0x01
  | .emptyPad => 0x02
  | .emptyTrailing => 0x03
  | .countRange => 0x04
  | .padRange => 0x05
  | .truncEntry => 0x06
  | .zeroLen => 0x07
  | .truncCode => 0x08
  | .codeWide => 0x09
  | .dupSym => 0x0A
  | .prefixConflict => 0x0B
  | .padExceeds => 0x0C
  | .unpackPadExceeds => 0x10
  | .streamNullChild => 0x20
  | .streamEndMidPath => 0x21
  | .encNoEntry => 0x01
  | .symDup => 0x01
  | .symUnsorted => 0x02
  | .noTree => 0x03
  | .noTable => 0x04
  | .noPacked => 0x05
  | .serEmptyWithBits => 0x06
  | .serRange => 0x07
  | .inFull => 0x01
  | .outFull => 0x02
  | .bitsFull => 0x03
  | .reservedOpcode => 0x01
  | .reservedField => 0x02
  | .badRegIndex => 0x03

/-- STATUS, the fields of R21 from bit 15 (hardwired 0) down to bit 0. -/
def statusWord (s : State) : Status :=
  0#1 ++ BitVec.ofBool s.pv ++ BitVec.ofBool s.cv ++ BitVec.ofBool s.tv ++ s.ecause ++ s.eclass ++
    BitVec.ofBool s.err

/-- The response word: STATUS [63:48], zero [47:33], DVALID [32], DATA [31:0] (R74). -/
def responseWord (status : Status) (dvalid : Bool) (data : Data) : Word :=
  status ++ 0#15 ++ BitVec.ofBool dvalid ++ data

/-- DVALID of a response word (R74). -/
def dvalidField (w : Word) : Bool := w.getLsbD 32

/-- The register map of R31; an index of 11 or more is reserved. The counts are 32-bit values (log 10). -/
def regValue (s : State) (index : Byte) : Option Data :=
  match index.toNat with
  | 0 => some ((statusWord s).zeroExtend 32)
  | 1 => some (BitVec.ofNat 32 s.symlist.length)
  | 2 => some (BitVec.ofNat 32 s.ctab.length)
  | 3 => some (BitVec.ofNat 32 s.bitseq.length)
  | 4 => some (BitVec.ofNat 32 s.packbuf.length)
  | 5 => some (s.pad.zeroExtend 32)
  | 6 => some (BitVec.ofNat 32 s.inbuf.length)
  | 7 => some (BitVec.ofNat 32 s.outbuf.length)
  | 8 => some s.outpos
  | 9 => some (treeInfo s.tree)
  | 10 => some (BitVec.ofNat 32 (maxLen s.ctab))
  | _ => none

end Sys2Proof.Machine
end

