-- ==== Sys2Proof/Machine/Ops.lean ====
section
/-! DEFINITION. The shared operations of every command: the named updates of State, returning a response, entering
the error state (60_exceptions.md R188), dropping a command (R189), leaving the error state (R192, R210) and taking the
host's next event (00_scope.md R6). -/

namespace Sys2Proof.Machine

/-! ### Named updates of State, one per write the rules make -/

/-- SYMLIST <- SYMLIST ++ [e] (R101). -/
def State.pushSym (s : State) (e : SymEntry) : State := { s with symlist := s.symlist ++ [e] }

/-- TREE <- t; TV <- 1 (R103). -/
def State.setTree (s : State) (t : CodeTree) : State := { s with tree := t, tv := true }

/-- CTAB <- ct; CV <- 1 (R108). -/
def State.setTable (s : State) (ct : List CodeEntry) : State := { s with ctab := ct, cv := true }

/-- (PACKBUF, PAD) <- (P, p); PV <- 1 (R120). -/
def State.setPacked (s : State) (P : List Byte) (p : Byte) : State :=
  { s with packbuf := P, pad := p, pv := true }

/-- BITSEQ <- B (R123, R125, R160). -/
def State.setBits (s : State) (B : Bits) : State := { s with bitseq := B }

/-- IN <- IN ++ [b] (R139). -/
def State.pushIn (s : State) (b : Byte) : State := { s with inbuf := s.inbuf ++ [b] }

/-- OUT <- out; OUTPOS <- 0 (R135, R162). -/
def State.setOut (s : State) (out : List Byte) : State := { s with outbuf := out, outpos := 0 }

/-- OUTPOS <- OUTPOS + 1 (R146). -/
def State.advanceOut (s : State) : State := { s with outpos := s.outpos + 1 }

/-- The commit of DESER (R145). -/
def State.commitContainer (s : State) (ct : List CodeEntry) (t : CodeTree) (P : List Byte) (p : Byte) : State :=
  { s with ctab := ct, tree := t, packbuf := P, pad := p, tv := true, cv := true, pv := true, inbuf := [] }

/-- ERR <- 1; ECLASS <- class; ECAUSE <- cause (R188). -/
def State.recordError (s : State) (c : Cause) : State :=
  { s with err := true, eclass := causeClass c, ecause := causeCode c }

/-- Every element of R20 to its reset value (R36), by CLEAR (R176) or by the platform's reset (R210). The parameters
and the host's side, which are no state of the block, stay (log 6). -/
def State.clearAll (s : State) : State :=
  { State.resetWith s.cfg with events := s.events, responses := s.responses }

/-- The host receives a response word (R74; log 4). -/
def State.logResponse (s : State) (w : Word) : State := { s with responses := s.responses ++ [w] }

/-! ### Responses and errors -/

/-- `respond(data, dvalid)`: the response carries STATUS after the command (R11, R74). -/
def respond (data : Data) (dvalid : Bool) (s : State) : Result :=
  .next (s.logResponse (responseWord (statusWord s) dvalid data))

/-- A command that completes and returns no value: DATA = 0, DVALID = 0 (R74). -/
def succeed (s : State) : Result := respond 0 false s

/-- A dropped command: "the state is unchanged, DATA = 0, DVALID = 0, and STATUS shows the first error" (R189). -/
def drop (s : State) : Result := respond 0 false s

/-- Error entry (R188): the error fields are written, every other write is discarded. "While ERR = 1 no later command
changes them" (R29): with an error recorded the command is dropped (R189). -/
def raise (c : Cause) (s : State) : Result :=
  if s.err then drop s else respond 0 false (s.recordError c)

/-- A command that is "dropped under ERR = 1" and otherwise executes by its rule (R75, R189). -/
def unlessErr (s : State) (body : Result) : Result := if s.err then drop s else body

/-- A check of a command rule, `if bad -> raise c`, before the rest of the command (R190). -/
def require (ok : Bool) (c : Cause) (s : State) (rest : Result) : Result := if ok then rest else raise c s

/-! ### The host's events -/

/-- The host's next event, if any, and the state with it taken (R6; log 3). -/
def nextEvent (s : State) : Option (HostEvent × State) :=
  match s.events with
  | [] => none
  | e :: rest => some (e, { s with events := rest })

/-- The host issues a command word next. -/
def State.issue (s : State) (w : Word) : State := { s with events := .command w :: s.events }

end Sys2Proof.Machine
end

