-- ==== Sys2Proof/Machine/BitPack.lean ====
section
/-! DEFINITION. The bit packer and unpacker: PACK, UNPACK and BITCLR (41_bitpack.md R120 to R125). -/

namespace Sys2Proof.Machine

/-- `p = 8 − (n mod 8)`, in 1..8 (R122). -/
def padCount (n : Nat) : Nat := 8 - n % 8

/-- Every 8 bits as one byte, MSB first (R53, R121). Its argument has a length that is a multiple of 8. -/
def groupBytes : Bits → List Byte
  | b7 :: b6 :: b5 :: b4 :: b3 :: b2 :: b1 :: b0 :: rest =>
    byteOf [b7, b6, b5, b4, b3, b2, b1, b0] :: groupBytes rest
  | _ => []

/-- The bytes of `pack(B)` (R121). -/
def packBytes (B : Bits) : List Byte := groupBytes (B ++ List.replicate (padCount B.length) false)

/-- `unpack(P, p)`: the bits of P with the last p removed (R124). -/
def unpackBits (P : List Byte) (p : Nat) : Bits := (P.flatMap msbBits).take (8 * P.length - p)

/-- PACK (R120). -/
def execPack (s : State) : Result :=
  unlessErr s <|
  succeed (s.setPacked (packBytes s.bitseq) (BitVec.ofNat 8 (padCount s.bitseq.length)))

/-- UNPACK (R123). -/
def execUnpack (s : State) : Result :=
  unlessErr s <|
  require s.pv .noPacked s <|
  require (s.pad.toNat ≤ 8 * s.packbuf.length) .unpackPadExceeds s <|
  require (8 * s.packbuf.length - s.pad.toNat ≤ s.cfg.bitCap) .bitsFull s <|
  succeed (s.setBits (unpackBits s.packbuf s.pad.toNat))

/-- BITCLR (R125). -/
def execBitclr (s : State) : Result :=
  unlessErr s <|
  succeed (s.setBits [])

end Sys2Proof.Machine
end

