-- ==== Sys2Proof/Machine/Container.lean ====
section
/-! DEFINITION. The container serializer and deserializer: SER, INPUSH, DESER and OUTPOP (42_container.md R135 to R146;
the format is 30_encoding.md R80 to R88). -/

namespace Sys2Proof.Machine

/-! ### Writing (R136 to R138) -/

/-- One code-table entry: symbol, length, `code_value` in ceil8(L) bytes (R82, R83, R136). -/
def entryBytes (e : CodeEntry) : List Byte :=
  e.sym :: BitVec.ofNat 8 e.code.length :: beBytes (val e.code) (ceil8 e.code.length)

/-- Whether every code has the length 1..255 the format can hold (R138). -/
def codesStorable (ct : List CodeEntry) : Bool :=
  ct.all fun e => decide (1 ≤ e.code.length ∧ e.code.length ≤ 255)

/-- `serialize(CT, P, p)`: the blob of a container, or the error of R137 or R138. -/
def serialize (ct : List CodeEntry) (P : List Byte) (p : Byte) : Except Cause (List Byte) :=
  match ct with
  | [] => if 8 * P.length = p.toNat then .ok [0, 0, 0] else .error .serEmptyWithBits
  | _ :: _ =>
    if ct.length ≤ 65535 ∧ (1 ≤ p.toNat ∧ p.toNat ≤ 8) ∧ codesStorable ct = true then
      .ok (beBytes ct.length 2 ++ [p] ++ ct.flatMap entryBytes ++ P)
    else .error .serRange

/-! ### Path insertion and the decode tree (R143) -/

/-- `insert(t, c, s)`: the leaf `s` at the end of the path `c`, internal nodes made on demand; `none` is
PREFIX_CONFLICT. R143 inserts below a Node; here the path may also end or start at a null child, which is what the
recursion of R143 does one level down. -/
def insertPath : CodeTree → Bits → Byte → Option CodeTree
  | .null, [], s => some (.leaf s)
  | .leaf _, [], _ => none
  | .node _ _, [], _ => none
  | .leaf _, _ :: _, _ => none
  | .null, b :: rest, s =>
    match insertPath .null rest s with
    | none => none
    | some t => if b then some (.node .null t) else some (.node t .null)
  | .node l r, b :: rest, s =>
    if b then
      match insertPath r rest s with
      | none => none
      | some t => some (.node l t)
    else
      match insertPath l rest s with
      | none => none
      | some t => some (.node t r)

/-- The fold of `insert` over entries in order, from a given tree. -/
def insertAll (t : CodeTree) : List CodeEntry → Option CodeTree
  | [] => some t
  | e :: es =>
    match insertPath t e.code e.sym with
    | none => none
    | some t' => insertAll t' es

/-- `DecodeTree(CT)` (R143). `none` says that the table has none, which no table the block holds does (log 9). -/
def decodeTree (ct : List CodeEntry) : Option CodeTree :=
  match ct with
  | [] => some .null
  | _ :: _ => insertAll (.node .null .null) ct

/-! ### Reading (R141, R142, R144) -/

/-- The checks of R142 on the code of one entry, after its symbol and its length: the table and the tree with the entry,
and the bytes after it. -/
def parseCode (s len : Byte) (b : List Byte) (ct : List CodeEntry) (t : CodeTree) :
    Except Cause (List CodeEntry × CodeTree × List Byte) :=
  if len.toNat = 0 then .error .zeroLen
  else if b.length < ceil8 len.toNat then .error .truncCode
  else if 2 ^ len.toNat ≤ unBE (b.take (ceil8 len.toNat)) then .error .codeWide
  else if ct.any (fun e => e.sym == s) then .error .dupSym
  else
    match insertPath t (bitsN (unBE (b.take (ceil8 len.toNat))) len.toNat) s with
    | none => .error .prefixConflict
    | some t' =>
      .ok (ct ++ [⟨s, bitsN (unBE (b.take (ceil8 len.toNat))) len.toNat⟩], t', b.drop (ceil8 len.toNat))

/-- `n` entries in order (R142). The list `b` is the blob from `pos` on. -/
def parseEntries (n : Nat) (b : List Byte) (ct : List CodeEntry) (t : CodeTree) :
    Except Cause (List CodeEntry × CodeTree × List Byte) :=
  match n with
  | 0 => .ok (ct, t, b)
  | n + 1 =>
    match b with
    | s :: len :: rest =>
      match parseCode s len rest ct t with
      | .error c => .error c
      | .ok (ct', t', b') => parseEntries n b' ct' t'
    | [_] => .error .truncEntry
    | [] => .error .truncEntry

/-- The bit region (R144): what is left after the entries is PACKBUF. -/
def parseRegion (p : Byte) (ct : List CodeEntry) (t : CodeTree) (P : List Byte) :
    Except Cause (List CodeEntry × CodeTree × List Byte × Byte) :=
  if 8 * P.length < p.toNat then .error .padExceeds else .ok (ct, t, P, p)

/-- The parse of a whole blob (R141, R142, R144): the table, the decode tree, the packed bytes and the padding that
DESER commits, or the first failing check. -/
def parseContainer (b : List Byte) : Except Cause (List CodeEntry × CodeTree × List Byte × Byte) :=
  match b with
  | n1 :: n0 :: p :: rest =>
    if unBE [n1, n0] = 0 then
      if p ≠ 0 then .error .emptyPad
      else if rest ≠ [] then .error .emptyTrailing
      else .ok ([], .null, [], 0)
    else if 256 < unBE [n1, n0] then .error .countRange
    else if p.toNat < 1 ∨ 8 < p.toNat then .error .padRange
    else
      match parseEntries (unBE [n1, n0]) rest [] (.node .null .null) with
      | .error c => .error c
      | .ok (ct, t, P) => parseRegion p ct t P
  | [_, _] => .error .truncHeader
  | [_] => .error .truncHeader
  | [] => .error .truncHeader

/-! ### The commands -/

/-- SER (R135). -/
def execSer (s : State) : Result :=
  unlessErr s <|
  require s.cv .noTable s <|
  require s.pv .noPacked s <|
  match serialize s.ctab s.packbuf s.pad with
  | .error c => raise c s
  | .ok blob =>
    require (blob.length ≤ s.cfg.outCap) .outFull s <|
    succeed (s.setOut blob)

/-- INPUSH (R139). -/
def execInpush (byte : Byte) (s : State) : Result :=
  unlessErr s <|
  require (s.inbuf.length + 1 ≤ s.cfg.inCap) .inFull s <|
  succeed (s.pushIn byte)

/-- DESER (R140, R145). -/
def execDeser (s : State) : Result :=
  unlessErr s <|
  match parseContainer s.inbuf with
  | .error c => raise c s
  | .ok (ct, t, P, p) => succeed (s.commitContainer ct t P p)

/-- OUTPOP (R146). -/
def execOutpop (s : State) : Result :=
  unlessErr s <|
  match s.outbuf[s.outpos.toNat]? with
  | some b => respond (b.zeroExtend 32) true s.advanceOut
  | none => respond 0 false s

end Sys2Proof.Machine
end

