-- ==== Sys2Proof/Machine/Codec.lean ====
section
/-! DEFINITION. The encoder and the decoder: ENC and DEC (43_codec.md R160 to R163). -/

namespace Sys2Proof.Machine

/-- The loop of R163 from the node `cur`, `nodes` levels below the root. A null child stops it; a leaf emits its symbol
and goes back to the root; the bits must end at the root. -/
def decodeFrom (root cur : CodeTree) (nodes : Nat) : Bits → Except Cause (List Byte)
  | [] => if nodes = 0 then .ok [] else .error .streamEndMidPath
  | b :: bs =>
    match child b cur with
    | .null => .error .streamNullChild
    | .leaf s =>
      match decodeFrom root root 0 bs with
      | .error c => .error c
      | .ok out => .ok (s :: out)
    | .node l r => decodeFrom root (.node l r) (nodes + 1) bs

/-- `decode(D, B)` (R163). On a null root the first bit meets a null child, and no bit at all decodes to nothing. -/
def decodeBits (root : CodeTree) (B : Bits) : Except Cause (List Byte) := decodeFrom root root 0 B

/-- ENC (R160). -/
def execEnc (sym : Byte) (s : State) : Result :=
  unlessErr s <|
  require s.cv .noTable s <|
  match lookupCode sym s.ctab with
  | none => raise .encNoEntry s
  | some c =>
    require (s.bitseq.length + c.length ≤ s.cfg.bitCap) .bitsFull s <|
    succeed (s.setBits (s.bitseq ++ c))

/-- DEC (R162). -/
def execDec (s : State) : Result :=
  unlessErr s <|
  require s.cv .noTable s <|
  match decodeTree s.ctab with
  | none => .fault .noDecodeTree
  | some d =>
    match decodeBits d s.bitseq with
    | .error c => raise c s
    | .ok out =>
      require (out.length ≤ s.cfg.outCap) .outFull s <|
      succeed (s.setOut out)

end Sys2Proof.Machine
end

