-- ==== Sys2Proof/Machine/Control.lean ====
section
/-! DEFINITION. The control commands NOP, CLEAR and RDREG (44_control.md R175 to R177), the only ones that execute while
ERR = 1 (60_exceptions.md R189), and what a word that is no command does (30_encoding.md R73, R75). -/

namespace Sys2Proof.Machine

/-- NOP (R175). -/
def execNop (s : State) : Result := succeed s

/-- CLEAR (R176). -/
def execClear (s : State) : Result := succeed s.clearAll

/-- RDREG (R177). With ERR = 1 an invalid index is dropped: `raise` drops then (R189). -/
def execRdreg (index : Byte) (s : State) : Result :=
  match regValue s index with
  | none => raise .badRegIndex s
  | some v => respond v true s

/-- The cause of a decode error (R73, R186). -/
def rejectCause : Reject → Cause
  | .reservedOpcode => .reservedOpcode
  | .reservedField => .reservedField

/-- A word that is no command raises BadCommand, and is dropped under ERR = 1 (R75, R189). -/
def rejectCommand (r : Reject) (s : State) : Result := raise (rejectCause r) s

end Sys2Proof.Machine
end

