-- ==== Sys2Proof/Machine/Tree.lean ====
section
/-! DEFINITION. The code tree builder and the code table extractor: SYMPUSH, BUILD and EXTRACT (40_tree.md R100 to
R112). -/

namespace Sys2Proof.Machine

/-! ### The split (R100) -/

/-- The total frequency T of a symbol list, exact (R7, R100). -/
def freqTotal (L : List SymEntry) : Nat := (L.map fun e => e.freq.toNat).sum

/-- The first index at which the running sum, started at `acc`, "reaches or exceeds half the total": `2 × C_i ≥ T`,
exact (R100, D39). -/
def halfIndex (total acc : Nat) : List SymEntry → Nat
  | [] => 0
  | e :: es => if total ≤ 2 * (acc + e.freq.toNat) then 0 else halfIndex total (acc + e.freq.toNat) es + 1

/-- The split index `k(L)` (R100). -/
def splitIndex (L : List SymEntry) : Nat := halfIndex (freqTotal L) 0 L

/-- `L[0..k(L)]`: "everything up to and including that index" (R100). -/
def splitLeft (L : List SymEntry) : List SymEntry := L.take (splitIndex L + 1)

/-- `L[k(L)+1..n−1]`: the remainder (R100). -/
def splitRight (L : List SymEntry) : List SymEntry := L.drop (splitIndex L + 1)

/-! ### BUILD (R102, R103) -/

/-- The recursion of R102 to a depth of at most `fuel`; `none` when it has not ended there. -/
def buildWithin (fuel : Nat) (L : List SymEntry) : Option CodeTree :=
  match L with
  | [] => some .null
  | [e] => some (.leaf e.sym)
  | _ :: _ :: _ =>
    match fuel with
    | 0 => none
    | fuel + 1 =>
      match buildWithin fuel (splitLeft L), buildWithin fuel (splitRight L) with
      | some l, some r => some (.node l r)
      | _, _ => none

/-- `build(L)` (R102). A recursion that ends has a depth below the length of the list (R107), so `none` says that it
does not end (log 8). -/
def build (L : List SymEntry) : Option CodeTree := buildWithin L.length L

/-! ### EXTRACT (R109, R110) -/

/-- `walk(t, p)`: the leaves of `t` with their paths, left before right (R109). -/
def walk : CodeTree → Bits → List CodeEntry
  | .null, _ => []
  | .leaf s, p => [⟨s, p⟩]
  | .node l r, p => walk l (p ++ [false]) ++ walk r (p ++ [true])

/-- `extract(t)`: a root Leaf gets the 1-bit code "0" (R109, R110). -/
def extract : CodeTree → List CodeEntry
  | .null => []
  | .leaf s => [⟨s, [false]⟩]
  | .node l r => walk l [false] ++ walk r [true]

/-! ### The commands -/

/-- Whether a symbol is already in SYMLIST (R101). -/
def symKnown (sym : Byte) (L : List SymEntry) : Bool := L.any fun e => e.sym == sym

/-- Whether a frequency exceeds the last one of SYMLIST (R101). -/
def aboveLast (f : Freq) (L : List SymEntry) : Bool :=
  match L.getLast? with
  | none => false
  | some e => decide (e.freq.toNat < f.toNat)

/-- SYMPUSH (R101). -/
def execSympush (sym : Byte) (freq : Freq) (s : State) : Result :=
  unlessErr s <|
  require (!symKnown sym s.symlist) .symDup s <|
  require (!aboveLast freq s.symlist) .symUnsorted s <|
  succeed (s.pushSym ⟨sym, freq⟩)

/-- BUILD (R103). -/
def execBuild (s : State) : Result :=
  unlessErr s <|
  match build s.symlist with
  | none => .fault .buildDoesNotEnd
  | some t => succeed (s.setTree t)

/-- EXTRACT (R108). -/
def execExtract (s : State) : Result :=
  unlessErr s <|
  require s.tv .noTree s <|
  succeed (s.setTable (extract s.tree))

end Sys2Proof.Machine
end

