-- ==== Sys2Proof/Machine/Dispatch.lean ====
section
/-! DEFINITION. One arm per command of the opcode map (30_encoding.md R72), each a direct call of its meaning. -/

namespace Sys2Proof.Machine

def exec (i : Instr) (s : State) : Host.Outcome State Fault Refusal :=
  match i with
  | .nop => Sys2Proof.Machine.execNop s
  | .clear => Sys2Proof.Machine.execClear s
  | .rdreg index => Sys2Proof.Machine.execRdreg index s
  | .sympush sym freq => Sys2Proof.Machine.execSympush sym freq s
  | .build => Sys2Proof.Machine.execBuild s
  | .extract => Sys2Proof.Machine.execExtract s
  | .pack => Sys2Proof.Machine.execPack s
  | .unpack => Sys2Proof.Machine.execUnpack s
  | .bitclr => Sys2Proof.Machine.execBitclr s
  | .ser => Sys2Proof.Machine.execSer s
  | .deser => Sys2Proof.Machine.execDeser s
  | .inpush byte => Sys2Proof.Machine.execInpush byte s
  | .outpop => Sys2Proof.Machine.execOutpop s
  | .enc sym => Sys2Proof.Machine.execEnc sym s
  | .dec => Sys2Proof.Machine.execDec s

end Sys2Proof.Machine
end

