-- ==== Sys2Proof/Machine/Step.lean ====
section
/-! DEFINITION. One step of the block: it takes the host's next event (00_scope.md R6, R12) and, when that is a command
word, decodes and dispatches it (30_encoding.md R75). -/

namespace Sys2Proof.Machine

/-- R75: decode, then execute or raise BadCommand. That a command other than NOP, CLEAR and a valid RDREG is dropped
under ERR = 1 is part of the commands' meanings. -/
def stepCommand (w : Word) (s : State) : Result :=
  match decode w with
  | .ok i => exec i s
  | .error r => rejectCommand r s

/-- With no event the block waits, holding its state (R200, R210; log 3). A command issued before the previous response
has no meaning (R213). -/
def step (s : State) : Host.Outcome State Fault Refusal :=
  match nextEvent s with
  | none => .next s
  | some (.command w, s') => stepCommand w s'
  | some (.reset, s') => .next s'.clearAll
  | some (.overlapped _, _) => .refused .overlappedCommand

/-- `s` with the word `w` of `nbits` bits issued by the host as its next command: the block fetches no program (R33), so
the host's issue stands for the fetch (log 3). -/
def State.withFetchWord (s : State) (nbits w : Nat) : State := s.issue (BitVec.ofNat 64 (w % 2 ^ nbits))

end Sys2Proof.Machine
end

