-- ==== Sys2Proof/Machine/HostSide.lean ====
section
/-! DEFINITION. What the host sends: the pseudo-instructions and their expansions (30_encoding.md R79), the command
orders of an operation (70_reset_and_hazards.md R212), and executing commands one after another (00_scope.md R5). The
block sees only the expansions; nothing here is used by `step`. -/

namespace Sys2Proof.Machine

/-- The pseudo-instructions with a fixed expansion (R79). -/
inductive Pseudo where
  /-- SYMTAB (s0,f0), ..., (sk,fk). -/
  | symtab (entries : List SymEntry)
  /-- ENCSTR b0 b1 ... -/
  | encstr (bytes : List Byte)
  /-- PUSHBLOB b0 b1 ... -/
  | pushblob (bytes : List Byte)
  /-- FINISH. -/
  | finish
  /-- DECOMPRESS. -/
  | decompress
  /-- RDSTAT. -/
  | rdstat
deriving DecidableEq, Repr

/-- The expansion of a pseudo-instruction (R79). -/
def expand : Pseudo → List Instr
  | .symtab entries => entries.map fun e => .sympush e.sym e.freq
  | .encstr bytes => bytes.map .enc
  | .pushblob bytes => bytes.map .inpush
  | .finish => [.pack, .ser]
  | .decompress => [.deser, .unpack, .dec]
  | .rdstat => [.rdreg 0]

/-- DRAIN: "OUTPOP, repeated by the host until a response has DVALID = 0" (R79), in at most `bound` passes. -/
def drainLoop : Nat → State → Result
  | 0, s => .next s
  | bound + 1, s =>
    match exec .outpop s with
    | .next t =>
      match t.responses.getLast? with
      | some w => if dvalidField w then drainLoop bound t else .next t
      | none => .next t
    | .fault f => .fault f
    | .refused r => .refused r

/-- DRAIN from a state of the block (R79). DESIGN CHOICE (log 18): the loop has a bound, one pass for every byte left and
one that finds none, which it never exceeds. -/
def drain (s : State) : Result := drainLoop (s.outbuf.length - s.outpos.toNat + 1) s

/-- The OUTPOPs DRAIN makes from a state of the block (log 18): with ERR = 0 one for every byte left and one that finds
none; with ERR = 1 one, which is dropped and so answered with DVALID = 0 (R189). -/
def drainCommands (s : State) : List Instr :=
  if s.err then [.outpop] else List.replicate (s.outbuf.length - s.outpos.toNat + 1) .outpop

/-- Compressing `d` with a symbol table, up to the OUTPOPs (R212). -/
def compressCommands (table : List SymEntry) (d : List Byte) : List Instr :=
  [.clear] ++ expand (.symtab table) ++ [.build, .extract] ++ expand (.encstr d) ++ expand .finish

/-- Decompressing a blob, up to the OUTPOPs (R212). -/
def decompressCommands (blob : List Byte) : List Instr :=
  [.clear] ++ expand (.pushblob blob) ++ expand .decompress

/-- Commands executed in the order the host issues them, each after the one before has completed (R5, R62). -/
def runCommands (is : List Instr) (s : State) : Result :=
  match is with
  | [] => .next s
  | i :: rest =>
    match exec i s with
    | .next s' => runCommands rest s'
    | .fault f => .fault f
    | .refused r => .refused r

end Sys2Proof.Machine
end

