-- ==== Sys2Proof/Safety.lean ====
section
/-! DEFINITION. The terms claims are stated in: the invariant of every reachable state (10_state.md R35 with R22 to R30,
20_memory.md R67 and 40_tree.md R107), the observation of a run (00_scope.md R12), a completed and a failed command
(30_encoding.md R74, 60_exceptions.md R188), and the tables of R72 and R187. -/

namespace Sys2Proof.Machine

/-- No code of the pair is a prefix of the other (R24). -/
def PrefixFree (a b : CodeEntry) : Prop := ¬ a.code <+: b.code ∧ ¬ b.code <+: a.code

/-- The invariants R24 gives "every CTAB the block writes". -/
structure TableOk (ct : List CodeEntry) : Prop where
  distinct   : (ct.map fun e => e.sym).Nodup
  lengths    : ∀ e ∈ ct, 1 ≤ e.code.length ∧ e.code.length ≤ 255
  prefixFree : ct.Pairwise PrefixFree
  count      : ct.length ≤ 256

/-- The invariants of R22. -/
structure SymlistOk (L : List SymEntry) : Prop where
  distinct : (L.map fun e => e.sym).Nodup
  sorted   : L.Pairwise fun a b => b.freq.toNat ≤ a.freq.toNat
  count    : L.length ≤ 256

/-- Each symbol on at most one leaf (R23) and no path longer than 255 (R107, R142): what makes EXTRACT write a table
that meets R24. -/
structure TreeOk (t : CodeTree) : Prop where
  distinct : (leaves t).Nodup
  shallow  : depth t ≤ 255

/-- R35, with the legality of the parameters (R7), the size of PACKBUF (R67), and the tree's part of R23 and R107. -/
structure BlockInv (s : State) : Prop where
  cfgLegal   : s.cfg.Legal
  errZero    : s.err = false ↔ (s.eclass = 0 ∧ s.ecause = 0)
  errCause   : s.err = true → ∃ c : Cause, s.eclass = causeClass c ∧ s.ecause = causeCode c
  symlistOk  : SymlistOk s.symlist
  treeOk     : TreeOk s.tree
  tableOk    : TableOk s.ctab
  noTree     : s.tv = false → s.tree = .null
  noTable    : s.cv = false → s.ctab = []
  noPacked   : s.pv = false → s.packbuf = [] ∧ s.pad = 0
  padFits    : s.pad.toNat ≤ 8 * s.packbuf.length
  padRange   : (1 ≤ s.pad.toNat ∧ s.pad.toNat ≤ 8) ∨ (s.pad = 0 ∧ s.packbuf = [])
  bitsFit    : s.bitseq.length ≤ s.cfg.bitCap
  packedFits : s.packbuf.length ≤ max (ceil8 s.cfg.bitCap + 1) s.cfg.inCap
  inFits     : s.inbuf.length ≤ s.cfg.inCap
  outFits    : s.outbuf.length ≤ s.cfg.outCap
  outposFits : s.outpos.toNat ≤ s.outbuf.length

/-! ### The outcome of a command -/

/-- The state once the block has answered with a response whose STATUS is its own STATUS (R74). -/
def State.answered (s : State) (dvalid : Bool) (data : Data) : State :=
  { s with responses := s.responses ++ [responseWord (statusWord s) dvalid data] }

/-- The state after a command that raises a cause while ERR = 0 (R188): the error fields and the response, nothing
else. -/
def State.failed (s : State) (c : Cause) : State :=
  { s with err := true, eclass := causeClass c, ecause := causeCode c }.answered false 0

/-- "BadCommand for non-zero fields": a word with the opcode `op` whose RSV field is not zero, or whose A or F field is
not zero where it is no operand, raises RESERVED_FIELD and changes nothing else; under ERR = 1 it is dropped (R73,
R189). -/
def RejectsBadFields (op : Nat) (useA useF : Bool) : Prop :=
  ∀ (s : State) (w : Word) (rest : List HostEvent), s.events = .command w :: rest → w.toNat / 2 ^ 56 = op →
    (w.toNat / 2 ^ 32 % 2 ^ 16 ≠ 0 ∨ (useA = false ∧ w.toNat / 2 ^ 48 % 2 ^ 8 ≠ 0) ∨
      (useF = false ∧ w.toNat % 2 ^ 32 ≠ 0)) →
    (s.err = false → step s = .next (({ s with events := rest } : State).failed .reservedField)) ∧
      (s.err = true → step s = .next (({ s with events := rest } : State).answered false 0))

/-- RDREG of an index answers the register of the map, its value being exactly `n` (R31, R177). -/
def RdregReports (s : State) (index : Byte) (n : Nat) : Prop :=
  ∃ v : Data, regValue s index = some v ∧ exec (.rdreg index) s = .next (s.answered true v) ∧ v.toNat = n

/-- The errors each command can raise, first checked first, beyond the decode errors (R187). -/
def possibleCauses : Instr → List Cause
  | .nop => []
  | .clear => []
  | .rdreg _ => [.badRegIndex]
  | .sympush _ _ => [.symDup, .symUnsorted]
  | .build => []
  | .extract => [.noTree]
  | .pack => []
  | .unpack => [.noPacked, .unpackPadExceeds, .bitsFull]
  | .bitclr => []
  | .ser => [.noTable, .noPacked, .serEmptyWithBits, .serRange, .outFull]
  | .deser => [.truncHeader, .emptyPad, .emptyTrailing, .countRange, .padRange, .truncEntry, .zeroLen, .truncCode,
      .codeWide, .dupSym, .prefixConflict, .padExceeds]
  | .inpush _ => [.inFull]
  | .outpop => []
  | .enc _ => [.noTable, .encNoEntry, .bitsFull]
  | .dec => [.noTable, .streamNullChild, .streamEndMidPath, .outFull]

/-! ### The opcode table (R72) -/

/-- The match and the mask of each row of spec/opcode_table.json, and the command of its operands. -/
def tableRows : List (Word × Word × (Byte → Freq → Instr)) :=
  [(0x0000000000000000, 0xFFFFFFFFFFFFFFFF, fun _ _ => .nop),
   (0x0100000000000000, 0xFFFFFFFFFFFFFFFF, fun _ _ => .clear),
   (0x0200000000000000, 0xFF00FFFFFFFFFFFF, fun a _ => .rdreg a),
   (0x1000000000000000, 0xFF00FFFF00000000, fun a f => .sympush a f),
   (0x1100000000000000, 0xFFFFFFFFFFFFFFFF, fun _ _ => .build),
   (0x1200000000000000, 0xFFFFFFFFFFFFFFFF, fun _ _ => .extract),
   (0x2000000000000000, 0xFFFFFFFFFFFFFFFF, fun _ _ => .pack),
   (0x2100000000000000, 0xFFFFFFFFFFFFFFFF, fun _ _ => .unpack),
   (0x2200000000000000, 0xFFFFFFFFFFFFFFFF, fun _ _ => .bitclr),
   (0x3000000000000000, 0xFFFFFFFFFFFFFFFF, fun _ _ => .ser),
   (0x3100000000000000, 0xFFFFFFFFFFFFFFFF, fun _ _ => .deser),
   (0x3200000000000000, 0xFF00FFFFFFFFFFFF, fun a _ => .inpush a),
   (0x3300000000000000, 0xFFFFFFFFFFFFFFFF, fun _ _ => .outpop),
   (0x4000000000000000, 0xFF00FFFFFFFFFFFF, fun a _ => .enc a),
   (0x4100000000000000, 0xFFFFFFFFFFFFFFFF, fun _ _ => .dec)]

/-! ### Trees, codes and blobs -/

/-- The subtree a bit string leads to: left on 0, right on 1 (R109, R163). -/
def follow (t : CodeTree) : Bits → CodeTree
  | [] => t
  | b :: bs => follow (child b t) bs

/-- The internal nodes of a tree (R106). -/
def innerNodes : CodeTree → Nat
  | .null => 0
  | .leaf _ => 0
  | .node l r => innerNodes l + innerNodes r + 1

/-- "Every Node it makes has two `some` children" (R105): no null tree anywhere. -/
def Full : CodeTree → Prop
  | .null => False
  | .leaf _ => True
  | .node l r => Full l ∧ Full r

/-- The concatenation of the codes of a byte string (R161); a byte without a code adds none. -/
def encodeAll (ct : List CodeEntry) (d : List Byte) : Bits := d.flatMap fun b => (lookupCode b ct).getD []

/-- The bytes of a table region: `Σ_k (2 + ceil8(L_k))` (R86). -/
def tableLength (ct : List CodeEntry) : Nat := (ct.map fun e => 2 + ceil8 e.code.length).sum

/-- The size of a blob (R86). -/
def blobLength (ct : List CodeEntry) (P : List Byte) : Nat :=
  if ct = [] then 3 else 3 + tableLength ct + P.length

/-- R12: "The observation of a run is the sequence of response words together with the final state". -/
def observation (s : State) : List Word × State := (s.responses, s)

end Sys2Proof.Machine
end

