-- ==== Sys2Proof/Certificates/Slice0/Obligations.lean ====
section
/-! DEFINITION. The statements for the provers. Each says which rules of spec/ it formalises. A next state is written
`.next (t.answered dvalid data)`: `t` is the state the command leaves, written as an update of `s`, so that every field
the update does not name is unchanged; `answered` appends the one response word. -/

open Sys2Proof Sys2Proof.Machine

/-! ### Reset and the whole machine -/

/-- R36, R210: every element of the record at its reset value. -/
def Obligations.ResetValuesAreZeroAndEmpty : Prop :=
  State.reset.err = false ∧ State.reset.eclass = 0 ∧ State.reset.ecause = 0 ∧
    State.reset.tv = false ∧ State.reset.cv = false ∧ State.reset.pv = false ∧ statusWord State.reset = 0 ∧
    State.reset.symlist = [] ∧ State.reset.tree = .null ∧ State.reset.ctab = [] ∧ State.reset.bitseq = [] ∧
    State.reset.packbuf = [] ∧ State.reset.pad = 0 ∧ State.reset.inbuf = [] ∧ State.reset.outbuf = [] ∧
    State.reset.outpos = 0

/-- The invariant holds right after reset, for every legal choice of the capacities. The capacities of `State.reset` and
its empty event and response lists are the model's choice (logs 1, 3 and 4). -/
def Obligations.ResetMeetsInvariant : Prop :=
  BlockInv State.reset ∧ ∀ c : Config, c.Legal → BlockInv (State.resetWith c)

/-- R35 with the clauses `BlockInv` adds to it: every step keeps the invariant. -/
def Obligations.StepKeepsInvariant : Prop :=
  ∀ s s' : State, BlockInv s → step s = .next s' → BlockInv s'

/-- R12 and R213: in a state that meets the invariant a step has a next state, unless the host breaks the handshake. The
two faults are the model's choice (logs 8 and 9): BUILD and DEC end in them exactly where the list has no tree and the
table no decode tree, in states the invariant rules out. -/
def Obligations.StepCompletesUnlessOverlapped : Prop :=
  (∀ s : State, BlockInv s →
    (∃ s', step s = .next s') ∨
      ∃ w rest, s.events = .overlapped w :: rest ∧ step s = .refused .overlappedCommand) ∧
  (∀ s : State, s.err = false → build s.symlist = none → exec .build s = .fault .buildDoesNotEnd) ∧
  ∀ s : State, s.err = false → s.cv = true → decodeTree s.ctab = none → exec .dec s = .fault .noDecodeTree

/-- R75: a command word the host issues runs the command it decodes to, on the state with the event taken; so does the
word `withFetchWord` places. -/
def Obligations.StepRunsDecodedCommand : Prop :=
  (∀ (s : State) (w : Word) (rest : List HostEvent) (i : Instr), s.events = .command w :: rest →
    decode w = .ok i → step s = exec i { s with events := rest }) ∧
  ∀ (s : State) (w : Word) (i : Instr), decode w = .ok i → step (s.withFetchWord 64 w.toNat) = exec i s

/-- R210, R211: the platform's reset and CLEAR give the same state of the block, the reset state; the host's side and
the capacities, which are no state of the block, stay (log 6). -/
def Obligations.ClearAndResetGiveResetState : Prop :=
  ∀ s : State,
    encode .clear = 0x0100000000000000 ∧
    exec .clear s =
      .next ({ State.resetWith s.cfg with events := s.events, responses := s.responses }.answered false 0) ∧
    ∀ rest, s.events = .reset :: rest →
      step s = .next { State.resetWith s.cfg with events := rest, responses := s.responses }

/-- R200, R210, R213: with nothing issued the block waits and holds its state; a command issued before the previous
response is refused. That a wait is a step, and that the early issue is an event, is the model's choice (logs 3 and
5). -/
def Obligations.WaitHoldsTheStateAndOverlapIsRefused : Prop :=
  ∀ s : State, (s.events = [] → step s = .next s) ∧
    ∀ (w : Word) (rest : List HostEvent), s.events = .overlapped w :: rest →
      step s = .refused .overlappedCommand

/-- R74: every command word, of a completing, failing or dropped command, gives exactly one response word with its fields,
STATUS being the STATUS after the command. DVALID is 1 exactly for a valid RDREG and for an OUTPOP with a byte
available, and DATA is then the register or the byte, else 0. That the parameters stay (log 1), that the host's later
events stay (log 3), that the earlier responses are kept (log 4), and all three under CLEAR too (log 6), is the model's
choice. -/
def Obligations.EachCommandGivesOneResponse : Prop :=
  (∀ (status : Status) (dvalid : Bool) (data : Data), (responseWord status dvalid data).toNat =
    data.toNat + 2 ^ 32 * dvalid.toNat + 2 ^ 48 * status.toNat) ∧
  ∀ (s t : State) (w : Word) (rest : List HostEvent), s.events = .command w :: rest → step s = .next t →
    t.events = rest ∧ t.cfg = s.cfg ∧
      ∃ (dvalid : Bool) (data : Data),
        t.responses = s.responses ++ [responseWord (statusWord t) dvalid data] ∧
        (dvalid = false → data = 0) ∧
        (dvalid = true ↔ (∃ index : Byte, decode w = .ok (.rdreg index) ∧ index.toNat ≤ 10) ∨
          (decode w = .ok .outpop ∧ s.err = false ∧ s.outpos.toNat < s.outbuf.length)) ∧
        (∀ index : Byte, decode w = .ok (.rdreg index) → index.toNat ≤ 10 → regValue s index = some data) ∧
        (dvalid = true → decode w = .ok .outpop →
          ∃ b : Byte, s.outbuf[s.outpos.toNat]? = some b ∧ data = BitVec.ofNat 32 b.toNat)

/-! ### Encoding -/

/-- R72, R73, R75: decoding inverts encoding on every command, and no two words are one command. -/
def Obligations.DecodeAndEncodeAgree : Prop :=
  (∀ i : Instr, decode (encode i) = .ok i) ∧ ∀ (w : Word) (i : Instr), decode w = .ok i → encode i = w

/-- R71, R72: "A word is that command exactly when (w & mask) = match", with A = w[55:48] and F = w[31:0]; every decoded
word is of one of the fifteen rows. -/
def Obligations.DecodeFollowsMatchAndMask : Prop :=
  (∀ r ∈ tableRows, ∀ w : Word,
    decode w = .ok (r.2.2 (BitVec.ofNat 8 (w.toNat / 2 ^ 48)) (BitVec.ofNat 32 w.toNat)) ↔ w &&& r.2.1 = r.1) ∧
  (∀ (w : Word) (i : Instr), decode w = .ok i → ∃ r ∈ tableRows, w &&& r.2.1 = r.1) ∧
  tableRows.length = 15

/-- R70, R78: the encoding of a command is `OP << 56 | A << 48 | F`. -/
def Obligations.EncodingIsShiftedFields : Prop :=
  ∀ i : Instr, (encode i).toNat = (opcode i).toNat * 2 ^ 56 + (aOperand i).toNat * 2 ^ 48 + (fOperand i).toNat

/-- R72: words written out from the opcode map decode to their commands. -/
def Obligations.TableWordsDecodeToTheirCommands : Prop :=
  decode 0x0000000000000000 = .ok .nop ∧ decode 0x020A000000000000 = .ok (.rdreg 10) ∧
    decode 0x104400000000002D = .ok (.sympush 0x44 45) ∧ decode 0x1100000000000000 = .ok .build ∧
    decode 0x2100000000000000 = .ok .unpack ∧ decode 0x32E4000000000000 = .ok (.inpush 0xE4) ∧
    decode 0x4041000000000000 = .ok (.enc 0x41)

/-- R73: a word whose OP is reserved raises BadCommand(RESERVED_OPCODE), class 5 and cause 1; a word with a valid OP and a
non-zero RSV, or a non-zero A or F that is no operand, raises BadCommand(RESERVED_FIELD), class 5 and cause 2. Neither
changes anything else. -/
def Obligations.IllegalWordsRaiseBadCommand : Prop :=
  ∀ (s : State) (w : Word) (rest : List HostEvent), s.events = .command w :: rest → s.err = false →
    ((0x03 ≤ w.toNat / 2 ^ 56 ∧ w.toNat / 2 ^ 56 ≤ 0x0F) ∨ (0x13 ≤ w.toNat / 2 ^ 56 ∧ w.toNat / 2 ^ 56 ≤ 0x1F) ∨
      (0x23 ≤ w.toNat / 2 ^ 56 ∧ w.toNat / 2 ^ 56 ≤ 0x2F) ∨ (0x34 ≤ w.toNat / 2 ^ 56 ∧ w.toNat / 2 ^ 56 ≤ 0x3F) ∨
      0x42 ≤ w.toNat / 2 ^ 56 →
      step s = .next ({ s with events := rest, err := true, eclass := 5, ecause := 1 }.answered false 0)) ∧
    (w.toNat / 2 ^ 56 ∈ [0x00, 0x01, 0x02, 0x10, 0x11, 0x12, 0x20, 0x21, 0x22, 0x30, 0x31, 0x32, 0x33, 0x40, 0x41] →
      (w.toNat / 2 ^ 32 % 2 ^ 16 ≠ 0 ∨
        (w.toNat / 2 ^ 48 % 2 ^ 8 ≠ 0 ∧ w.toNat / 2 ^ 56 ∉ [0x02, 0x10, 0x32, 0x40]) ∨
        (w.toNat % 2 ^ 32 ≠ 0 ∧ w.toNat / 2 ^ 56 ≠ 0x10)) →
      step s = .next ({ s with events := rest, err := true, eclass := 5, ecause := 2 }.answered false 0))

/-- R55: a byte-wide link carries a word most significant byte first. -/
def Obligations.LinkCarriesBigEndianBytes : Prop :=
  ∀ w : Word, (linkBytes w).length = 8 ∧ unBE (linkBytes w) = w.toNat ∧ ofLinkBytes (linkBytes w) = some w

/-- R79: the fixed expansions of the pseudo-instructions, as the command words the block sees. -/
def Obligations.PseudoInstructionsExpandAsTheTableSays : Prop :=
  (∀ (sym : Byte) (freq : Freq) (rest : List SymEntry),
    expand (.symtab (⟨sym, freq⟩ :: rest)) = .sympush sym freq :: expand (.symtab rest)) ∧
  expand (.symtab []) = [] ∧
  (∀ (b : Byte) (rest : List Byte), expand (.encstr (b :: rest)) = .enc b :: expand (.encstr rest)) ∧
  expand (.encstr []) = [] ∧
  (∀ (b : Byte) (rest : List Byte), expand (.pushblob (b :: rest)) = .inpush b :: expand (.pushblob rest)) ∧
  expand (.pushblob []) = [] ∧
  (expand .finish).map encode = [0x2000000000000000, 0x3000000000000000] ∧
  (expand .decompress).map encode = [0x3100000000000000, 0x2100000000000000, 0x4100000000000000] ∧
  (expand .rdstat).map encode = [0x0200000000000000]

/-! ### STATUS, the response word and the errors -/

/-- R21: the fields of STATUS, bit 15 being 0. -/
def Obligations.StatusHoldsItsFields : Prop :=
  ∀ s : State, (statusWord s).toNat =
    s.err.toNat + 2 * s.eclass.toNat + 2 ^ 4 * s.ecause.toNat + 2 ^ 12 * s.tv.toNat + 2 ^ 13 * s.cv.toNat +
      2 ^ 14 * s.pv.toNat

/-- R186: the class and the code of every cause. -/
def Obligations.CauseCodesFollowTheTable : Prop :=
  ([.truncHeader, .emptyPad, .emptyTrailing, .countRange, .padRange, .truncEntry, .zeroLen, .truncCode, .codeWide,
      .dupSym, .prefixConflict, .padExceeds, .unpackPadExceeds, .streamNullChild, .streamEndMidPath, .encNoEntry,
      .symDup, .symUnsorted, .noTree, .noTable, .noPacked, .serEmptyWithBits, .serRange, .inFull, .outFull, .bitsFull,
      .reservedOpcode, .reservedField, .badRegIndex] : List Cause).map
        (fun c => ((causeClass c).toNat, (causeCode c).toNat)) =
    [(1, 0x01), (1, 0x02), (1, 0x03), (1, 0x04), (1, 0x05), (1, 0x06), (1, 0x07), (1, 0x08), (1, 0x09), (1, 0x0A),
      (1, 0x0B), (1, 0x0C), (1, 0x10), (1, 0x20), (1, 0x21), (2, 0x01), (3, 0x01), (3, 0x02), (3, 0x03), (3, 0x04),
      (3, 0x05), (3, 0x06), (3, 0x07), (4, 0x01), (4, 0x02), (4, 0x03), (5, 0x01), (5, 0x02), (5, 0x03)]

/-- R188, with the lists of R187: a command that fails records one of its own causes, and a word that is no command a
cause of BadCommand, and nothing else changes; no partial buffer, table or output survives. -/
def Obligations.FailingCommandChangesOnlyTheErrorFields : Prop :=
  (∀ (i : Instr) (s t : State), s.err = false → exec i s = .next t → t.err = true →
    ∃ c ∈ possibleCauses i, t = s.failed c) ∧
  ∀ (s t : State) (w : Word) (rest : List HostEvent) (r : Reject), s.events = .command w :: rest → s.err = false →
    decode w = .error r → step s = .next t →
    ∃ c ∈ [Cause.reservedOpcode, .reservedField], t = ({ s with events := rest } : State).failed c

/-- R75, R189: while ERR = 1, NOP, CLEAR and a valid RDREG execute by their rules, and every other word is dropped. -/
def Obligations.StickyErrorDropsOtherCommands : Prop :=
  ∀ s : State, s.err = true →
    exec .nop s = .next (s.answered false 0) ∧
    (∃ t, exec .clear s = .next t ∧ t.err = false) ∧
    (∀ index : Byte, index.toNat ≤ 10 → ∃ v, regValue s index = some v ∧
      exec (.rdreg index) s = .next (s.answered true v)) ∧
    (∀ i : Instr, i ≠ .nop → i ≠ .clear → (∀ index : Byte, i = .rdreg index → 10 < index.toNat) →
      exec i s = .next (s.answered false 0)) ∧
    ∀ (w : Word) (rest : List HostEvent) (r : Reject), s.events = .command w :: rest → decode w = .error r →
      step s = .next ({ s with events := rest }.answered false 0)

/-- R192: only CLEAR and the platform's reset leave the error state, and both discard all data state; any other step keeps
the recorded error. That the capacities, the pending events and the responses stay, and that reset gives no response, is
the model's choice (log 6). -/
def Obligations.OnlyClearOrResetLeavesTheErrorState : Prop :=
  ∀ s t : State, s.err = true → step s = .next t →
    (t.err = true ∧ t.eclass = s.eclass ∧ t.ecause = s.ecause) ∨
      (∃ rest, s.events = .command 0x0100000000000000 :: rest ∧
        t = { State.resetWith s.cfg with events := rest, responses := s.responses }.answered false 0) ∨
      ∃ rest, s.events = .reset :: rest ∧
        t = { State.resetWith s.cfg with events := rest, responses := s.responses }

/-- R30: BUILD and DESER set TV, EXTRACT and DESER CV, PACK and DESER PV, no other command sets one, and only CLEAR clears
one. EXTRACT needs TV, ENC, DEC and SER need CV, UNPACK and SER need PV: with the flag 0 they raise NO_TREE, NO_TABLE,
NO_PACKED. -/
def Obligations.ValidityFlagsFollowTheirProducers : Prop :=
  (∀ (i : Instr) (s t : State), exec i s = .next t →
    (t.tv = true → s.tv = true ∨ i = .build ∨ i = .deser) ∧
    (t.cv = true → s.cv = true ∨ i = .extract ∨ i = .deser) ∧
    (t.pv = true → s.pv = true ∨ i = .pack ∨ i = .deser) ∧
    (i ≠ .clear → (s.tv = true → t.tv = true) ∧ (s.cv = true → t.cv = true) ∧ (s.pv = true → t.pv = true)) ∧
    (t.err = false → (i = .build ∨ i = .deser → t.tv = true) ∧ (i = .extract ∨ i = .deser → t.cv = true) ∧
      (i = .pack ∨ i = .deser → t.pv = true))) ∧
  ∀ s : State, s.err = false →
    (s.tv = false → exec .extract s = .next (s.failed .noTree)) ∧
    (s.cv = false → (∀ sym : Byte, exec (.enc sym) s = .next (s.failed .noTable)) ∧
      exec .dec s = .next (s.failed .noTable) ∧ exec .ser s = .next (s.failed .noTable)) ∧
    (s.pv = false → exec .unpack s = .next (s.failed .noPacked) ∧
      (s.cv = true → exec .ser s = .next (s.failed .noPacked)))

/-! ### Control commands -/

/-- R175: NOP changes nothing and responds with STATUS alone, also under ERR = 1; a NOP word with a non-zero field is no
NOP. -/
def Obligations.NopOnlyResponds : Prop :=
  encode .nop = 0x0000000000000000 ∧ (∀ s : State, exec .nop s = .next (s.answered false 0)) ∧
    RejectsBadFields 0x00 false false

/-- R31, R177: the value of every register of the map, also under ERR = 1; RDREG changes nothing else. An index of 11 or
more raises BadCommand(BAD_REG_INDEX), class 5 and cause 3, when ERR = 0, and is dropped under ERR = 1. -/
def Obligations.RdregReportsTheRegisterMap : Prop :=
  RejectsBadFields 0x02 true false ∧ ∀ s : State,
    (∀ index : Byte, (encode (.rdreg index)).toNat = 0x02 * 2 ^ 56 + index.toNat * 2 ^ 48) ∧
    exec (.rdreg 0) s = .next (s.answered true ((statusWord s).zeroExtend 32)) ∧
    exec (.rdreg 1) s = .next (s.answered true (BitVec.ofNat 32 s.symlist.length)) ∧
    exec (.rdreg 2) s = .next (s.answered true (BitVec.ofNat 32 s.ctab.length)) ∧
    exec (.rdreg 3) s = .next (s.answered true (BitVec.ofNat 32 s.bitseq.length)) ∧
    exec (.rdreg 4) s = .next (s.answered true (BitVec.ofNat 32 s.packbuf.length)) ∧
    exec (.rdreg 5) s = .next (s.answered true (BitVec.ofNat 32 s.pad.toNat)) ∧
    exec (.rdreg 6) s = .next (s.answered true (BitVec.ofNat 32 s.inbuf.length)) ∧
    exec (.rdreg 7) s = .next (s.answered true (BitVec.ofNat 32 s.outbuf.length)) ∧
    exec (.rdreg 8) s = .next (s.answered true s.outpos) ∧
    (s.tree = .null → exec (.rdreg 9) s = .next (s.answered true 0)) ∧
    (∀ a, s.tree = .leaf a → exec (.rdreg 9) s =
      .next (s.answered true (BitVec.ofNat 32 (1 + 2 ^ 8 * a.toNat + 2 ^ 16)))) ∧
    (∀ l r, s.tree = .node l r → exec (.rdreg 9) s =
      .next (s.answered true (BitVec.ofNat 32 (2 + 2 ^ 16 * (leaves s.tree).length)))) ∧
    (∃ m, exec (.rdreg 10) s = .next (s.answered true (BitVec.ofNat 32 m)) ∧
      (∀ e ∈ s.ctab, e.code.length ≤ m) ∧ (s.ctab = [] → m = 0) ∧ (s.ctab ≠ [] → ∃ e ∈ s.ctab, e.code.length = m)) ∧
    ∀ index : Byte, 11 ≤ index.toNat →
      (s.err = false →
        exec (.rdreg index) s = .next ({ s with err := true, eclass := 5, ecause := 3 }.answered false 0)) ∧
      (s.err = true → exec (.rdreg index) s = .next (s.answered false 0))

/-- In a state that meets the invariant RDREG reports every register of the map exactly: no length, PAD, OUTPOS, leaf count
or code length is cut to its field (R31 with the ranges of R35). That a longer one would be cut, in states no run
reaches, is log 10's choice. -/
def Obligations.RegisterCountsAreExact : Prop :=
  ∀ s : State, BlockInv s →
    RdregReports s 0 (statusWord s).toNat ∧
    RdregReports s 1 s.symlist.length ∧
    RdregReports s 2 s.ctab.length ∧
    RdregReports s 3 s.bitseq.length ∧
    RdregReports s 4 s.packbuf.length ∧
    RdregReports s 5 s.pad.toNat ∧
    RdregReports s 6 s.inbuf.length ∧
    RdregReports s 7 s.outbuf.length ∧
    RdregReports s 8 s.outpos.toNat ∧
    (∃ n, RdregReports s 9 n ∧ n / 2 ^ 16 = (leaves s.tree).length) ∧
    RdregReports s 10 (maxLen s.ctab) ∧
    (leaves s.tree).length ≤ 256 ∧ maxLen s.ctab ≤ 255

/-! ### SYMPUSH, BUILD, EXTRACT -/

/-- R101: SYMPUSH appends its pair; SYM_DUP (class 3, cause 1) is checked before SYM_UNSORTED (class 3, cause 2); a 257th
push raises SYM_DUP whatever its operands; it is dropped under ERR = 1. -/
def Obligations.SympushFollowsItsRule : Prop :=
  RejectsBadFields 0x10 true true ∧ ∀ (s : State) (sym : Byte) (freq : Freq),
    (encode (.sympush sym freq)).toNat = 0x10 * 2 ^ 56 + sym.toNat * 2 ^ 48 + freq.toNat ∧
    (s.err = true → exec (.sympush sym freq) s = .next (s.answered false 0)) ∧
    (s.err = false → (∃ e ∈ s.symlist, e.sym = sym) →
      exec (.sympush sym freq) s = .next ({ s with err := true, eclass := 3, ecause := 1 }.answered false 0)) ∧
    (s.err = false → (¬ ∃ e ∈ s.symlist, e.sym = sym) →
      (∃ e, s.symlist.getLast? = some e ∧ e.freq.toNat < freq.toNat) →
      exec (.sympush sym freq) s = .next ({ s with err := true, eclass := 3, ecause := 2 }.answered false 0)) ∧
    (s.err = false → (¬ ∃ e ∈ s.symlist, e.sym = sym) →
      (∀ e, s.symlist.getLast? = some e → freq.toNat ≤ e.freq.toNat) →
      exec (.sympush sym freq) s = .next ({ s with symlist := s.symlist ++ [SymEntry.mk sym freq] }.answered false 0)) ∧
    (s.err = false → SymlistOk s.symlist → s.symlist.length = 256 →
      exec (.sympush sym freq) s = .next (s.failed .symDup))

/-- R100: the split index is the first one at which twice the running sum reaches the total, and the split is after
it. -/
def Obligations.SplitIsAtTheFirstHalfTotal : Prop :=
  ∀ L : List SymEntry, L ≠ [] →
    splitIndex L < L.length ∧
    (L.map fun e => e.freq.toNat).sum ≤ 2 * ((L.take (splitIndex L + 1)).map fun e => e.freq.toNat).sum ∧
    (∀ i < splitIndex L, 2 * ((L.take (i + 1)).map fun e => e.freq.toNat).sum < (L.map fun e => e.freq.toNat).sum) ∧
    splitLeft L = L.take (splitIndex L + 1) ∧ splitRight L = L.drop (splitIndex L + 1)

/-- R102: the three cases of the build function on every list; that a recursion which does not end gives no tree is the
model's choice (log 8). R105, which the spec marks derived: on a list in non-increasing order of frequency, the only lists
SYMLIST holds, neither part of a split is empty and both build. -/
def Obligations.BuildFollowsItsThreeCases : Prop :=
  build [] = some .null ∧ (∀ e : SymEntry, build [e] = some (.leaf e.sym)) ∧
    (∀ L : List SymEntry, 2 ≤ L.length → ∀ t, build L = some t ↔
      ∃ l r, build (splitLeft L) = some l ∧ build (splitRight L) = some r ∧ t = .node l r) ∧
    ∀ L : List SymEntry, L.Pairwise (fun a b => b.freq.toNat ≤ a.freq.toNat) → 2 ≤ L.length →
      splitLeft L ≠ [] ∧ splitRight L ≠ [] ∧
      ∃ l r, build (splitLeft L) = some l ∧ build (splitRight L) = some r

/-- R103: BUILD writes the tree of SYMLIST and sets TV, on every SYMLIST the block can hold; it is dropped under
ERR = 1. -/
def Obligations.BuildWritesTheTreeOfSymlist : Prop :=
  RejectsBadFields 0x11 false false ∧ ∀ s : State, encode .build = 0x1100000000000000 ∧
    (s.err = true → exec .build s = .next (s.answered false 0)) ∧
    (s.err = false → SymlistOk s.symlist → ∃ t, build s.symlist = some t ∧
      exec .build s = .next ({ s with tree := t, tv := true }.answered false 0))

/-- R105 to R107: a built tree has one leaf per symbol, in list order, n − 1 internal nodes each with two children, and
every leaf at a depth of 1 to n − 1 when n ≥ 2. -/
def Obligations.BuiltTreeHasOneLeafPerSymbol : Prop :=
  ∀ (L : List SymEntry) (t : CodeTree), L.Pairwise (fun a b => b.freq.toNat ≤ a.freq.toNat) → L ≠ [] →
    build L = some t →
    leaves t = L.map (fun e => e.sym) ∧ innerNodes t + 1 = L.length ∧ Full t ∧
      (2 ≤ L.length → 1 ≤ depth t ∧ depth t + 1 ≤ L.length)

/-- R108: EXTRACT writes the table of TREE and sets CV; NO_TREE (class 3, cause 3) when TV = 0; dropped under
ERR = 1. -/
def Obligations.ExtractWritesTheTableOfTree : Prop :=
  RejectsBadFields 0x12 false false ∧ ∀ s : State, encode .extract = 0x1200000000000000 ∧
    (s.err = true → exec .extract s = .next (s.answered false 0)) ∧
    (s.err = false → s.tv = false →
      exec .extract s = .next ({ s with err := true, eclass := 3, ecause := 3 }.answered false 0)) ∧
    (s.err = false → s.tv = true →
      exec .extract s = .next ({ s with ctab := extract s.tree, cv := true }.answered false 0))

/-- R109, R110: the table lists the leaves left to right, each with the path that leads to it; a root Leaf gets the code
"0" and a null root none. -/
def Obligations.ExtractListsLeavesWithTheirPaths : Prop :=
  extract .null = [] ∧ (∀ a : Byte, extract (.leaf a) = [⟨a, [false]⟩]) ∧
    ∀ l r : CodeTree, (extract (.node l r)).map (fun e => e.sym) = leaves (.node l r) ∧
      ∀ e ∈ extract (.node l r), follow (.node l r) e.code = .leaf e.sym

/-- R111 and R24: the table of a tree with distinct symbols and paths of at most 255 bits is prefix-free, with distinct
symbols and codes of 1 to 255 bits. -/
def Obligations.ExtractedTableIsPrefixFree : Prop :=
  ∀ t : CodeTree, TreeOk t → TableOk (extract t)

/-! ### PACK, UNPACK, BITCLR -/

/-- R120 to R122: PACK writes the padding count 8 − (n mod 8) and floor(n/8) + 1 bytes, logical bit 8i + j being bit
7 − j of byte i and the pad bits 0; it sets PV, leaves BITSEQ, and is dropped under ERR = 1. -/
def Obligations.PackFollowsItsRule : Prop :=
  RejectsBadFields 0x20 false false ∧ ∀ s : State, encode .pack = 0x2000000000000000 ∧
    (s.err = true → exec .pack s = .next (s.answered false 0)) ∧
    (s.err = false → ∃ P : List Byte,
      exec .pack s = .next
        ({ s with packbuf := P, pad := BitVec.ofNat 8 (8 - s.bitseq.length % 8), pv := true }.answered false 0) ∧
      P.length = s.bitseq.length / 8 + 1 ∧
      ∀ (i j : Nat) (b : Byte), j < 8 → P[i]? = some b → b.getLsbD (7 - j) = s.bitseq.getD (8 * i + j) false)

/-- R123, R124: UNPACK's checks in their order (class 3, cause 5; class 1, cause 0x10; class 4, cause 3), and the bit
sequence it writes: the first 8 × len(PACKBUF) − PAD bits of PACKBUF, MSB first. -/
def Obligations.UnpackFollowsItsRule : Prop :=
  RejectsBadFields 0x21 false false ∧ ∀ s : State, encode .unpack = 0x2100000000000000 ∧
    (s.err = true → exec .unpack s = .next (s.answered false 0)) ∧
    (s.err = false → s.pv = false →
      exec .unpack s = .next ({ s with err := true, eclass := 3, ecause := 5 }.answered false 0)) ∧
    (s.err = false → s.pv = true → 8 * s.packbuf.length < s.pad.toNat →
      exec .unpack s = .next ({ s with err := true, eclass := 1, ecause := 0x10 }.answered false 0)) ∧
    (s.err = false → s.pv = true → s.pad.toNat ≤ 8 * s.packbuf.length →
      s.cfg.bitCap < 8 * s.packbuf.length - s.pad.toNat →
      exec .unpack s = .next ({ s with err := true, eclass := 4, ecause := 3 }.answered false 0)) ∧
    (s.err = false → s.pv = true → s.pad.toNat ≤ 8 * s.packbuf.length →
      8 * s.packbuf.length - s.pad.toNat ≤ s.cfg.bitCap →
      ∃ B : Bits, exec .unpack s = .next ({ s with bitseq := B }.answered false 0) ∧
        B.length = 8 * s.packbuf.length - s.pad.toNat ∧
        ∀ (k : Nat) (b : Bool), B[k]? = some b → b = (s.packbuf.getD (k / 8) 0).getLsbD (7 - k % 8))

/-- R125: BITCLR empties BITSEQ and changes nothing else; dropped under ERR = 1. -/
def Obligations.BitclrEmptiesBitseq : Prop :=
  RejectsBadFields 0x22 false false ∧ ∀ s : State, encode .bitclr = 0x2200000000000000 ∧
    (s.err = true → exec .bitclr s = .next (s.answered false 0)) ∧
    (s.err = false → exec .bitclr s = .next ({ s with bitseq := [] }.answered false 0))

/-- R126: PACK followed by UNPACK leaves BITSEQ unchanged, and the length equation holds between them. -/
def Obligations.UnpackInvertsPack : Prop :=
  ∀ s : State, s.err = false → s.bitseq.length ≤ s.cfg.bitCap →
    ∃ t u, exec .pack s = .next t ∧ exec .unpack t = .next u ∧ u.err = false ∧ u.bitseq = s.bitseq ∧
      1 ≤ t.pad.toNat ∧ t.pad.toNat ≤ 8 ∧ 8 * t.packbuf.length - t.pad.toNat = s.bitseq.length

/-! ### SER, DESER, INPUSH, OUTPOP -/

/-- R9 and R54: the big-endian bytes of a number and the bits of a numeral are inverse to `unBE` and `val`. -/
def Obligations.ConversionsInvertEachOther : Prop :=
  (∀ v m : Nat, v < 256 ^ m → (beBytes v m).length = m ∧ unBE (beBytes v m) = v) ∧
  (∀ bs : List Byte, beBytes (unBE bs) bs.length = bs) ∧
  (∀ v n : Nat, v < 2 ^ n → (bitsN v n).length = n ∧ val (bitsN v n) = v) ∧
  (∀ c : Bits, bitsN (val c) c.length = c) ∧
  ∀ x : Byte, byteOf (msbBits x) = x

/-- R136: SER on a non-empty table writes header, entries in CTAB order and PACKBUF to OUT, and OUTPOS 0. -/
def Obligations.SerWritesTheContainer : Prop :=
  ∀ s : State, encode .ser = 0x3000000000000000 ∧
    (s.err = false → s.cv = true → s.pv = true → s.ctab ≠ [] → s.ctab.length ≤ 65535 →
      1 ≤ s.pad.toNat → s.pad.toNat ≤ 8 → (∀ e ∈ s.ctab, 1 ≤ e.code.length ∧ e.code.length ≤ 255) →
      3 + (s.ctab.map fun e => 2 + (e.code.length + 7) / 8).sum + s.packbuf.length ≤ s.cfg.outCap →
      exec .ser s = .next
        ({ s with
            outbuf :=
              beBytes s.ctab.length 2 ++ [s.pad] ++
                (s.ctab.map fun e : CodeEntry =>
                  [e.sym, BitVec.ofNat 8 e.code.length] ++ beBytes (val e.code) ((e.code.length + 7) / 8)).flatten ++
                s.packbuf,
            outpos := 0 }.answered false 0))

/-- R135, R137, R138: SER's checks in their order, the blob in OUT, the empty container, and dropping under ERR = 1. That a
PAD above 8 × len(PACKBUF), in no reachable state, counts as bits of an empty table is the model's choice (log 11). -/
def Obligations.SerChecksInOrder : Prop :=
  RejectsBadFields 0x30 false false ∧ ∀ s : State, encode .ser = 0x3000000000000000 ∧
    (s.err = true → exec .ser s = .next (s.answered false 0)) ∧
    (s.err = false → s.cv = false → exec .ser s = .next (s.failed .noTable)) ∧
    (s.err = false → s.cv = true → s.pv = false → exec .ser s = .next (s.failed .noPacked)) ∧
    (s.err = false → s.cv = true → s.pv = true → s.ctab = [] → 8 * s.packbuf.length ≠ s.pad.toNat →
      exec .ser s = .next (s.failed .serEmptyWithBits)) ∧
    (s.err = false → s.cv = true → s.pv = true → s.ctab ≠ [] →
      (65535 < s.ctab.length ∨ s.pad.toNat < 1 ∨ 8 < s.pad.toNat ∨
        ∃ e ∈ s.ctab, e.code.length < 1 ∨ 255 < e.code.length) →
      exec .ser s = .next (s.failed .serRange)) ∧
    (∀ blob, s.err = false → s.cv = true → s.pv = true → serialize s.ctab s.packbuf s.pad = .ok blob →
      (s.cfg.outCap < blob.length → exec .ser s = .next (s.failed .outFull)) ∧
      (blob.length ≤ s.cfg.outCap →
        exec .ser s = .next ({ s with outbuf := blob, outpos := 0 }.answered false 0))) ∧
    (s.err = false → s.cv = true → s.pv = true → s.ctab = [] → 8 * s.packbuf.length = s.pad.toNat →
      3 ≤ s.cfg.outCap → exec .ser s = .next ({ s with outbuf := [0, 0, 0], outpos := 0 }.answered false 0))

/-- R86: the size of every blob SER can write. -/
def Obligations.BlobSizeFollowsTheFormula : Prop :=
  ∀ (ct : List CodeEntry) (P : List Byte) (p : Byte) (blob : List Byte), serialize ct P p = .ok blob →
    blob.length = blobLength ct P

/-- R139: INPUSH appends its byte to IN; IN_FULL (class 4, cause 1) when IN is full; dropped under ERR = 1. -/
def Obligations.InpushFollowsItsRule : Prop :=
  RejectsBadFields 0x32 true false ∧ ∀ (s : State) (b : Byte),
    (encode (.inpush b)).toNat = 0x32 * 2 ^ 56 + b.toNat * 2 ^ 48 ∧
    (s.err = true → exec (.inpush b) s = .next (s.answered false 0)) ∧
    (s.err = false → s.cfg.inCap < s.inbuf.length + 1 →
      exec (.inpush b) s = .next ({ s with err := true, eclass := 4, ecause := 1 }.answered false 0)) ∧
    (s.err = false → s.inbuf.length + 1 ≤ s.cfg.inCap →
      exec (.inpush b) s = .next ({ s with inbuf := s.inbuf ++ [b] }.answered false 0))

/-- R140, R145: DESER commits the parse of IN whole, TREE being the decode tree of CTAB, or fails with the parse's cause and
changes nothing else; dropped under ERR = 1. -/
def Obligations.DeserCommitsOrFails : Prop :=
  RejectsBadFields 0x31 false false ∧ ∀ s : State, encode .deser = 0x3100000000000000 ∧
    (s.err = true → exec .deser s = .next (s.answered false 0)) ∧
    (∀ c, s.err = false → parseContainer s.inbuf = .error c → exec .deser s = .next (s.failed c)) ∧
    (∀ ct t P p, s.err = false → parseContainer s.inbuf = .ok (ct, t, P, p) →
      exec .deser s = .next
        ({ s with ctab := ct, tree := t, packbuf := P, pad := p, tv := true, cv := true, pv := true,
                  inbuf := [] }.answered false 0) ∧
      decodeTree ct = some t)

/-- R141: the checks on the header, in their order, and the empty container; after them the entries and the bit region
decide (R142, R144). -/
def Obligations.DeserChecksTheHeaderInOrder : Prop :=
  (∀ b : List Byte, b.length < 3 → parseContainer b = .error .truncHeader) ∧
  (∀ (p : Byte) (rest : List Byte), p ≠ 0 → parseContainer (0 :: 0 :: p :: rest) = .error .emptyPad) ∧
  (∀ rest : List Byte, rest ≠ [] → parseContainer (0 :: 0 :: 0 :: rest) = .error .emptyTrailing) ∧
  parseContainer [0, 0, 0] = .ok ([], .null, [], 0) ∧
  (∀ (n1 n0 p : Byte) (rest : List Byte), 256 < 256 * n1.toNat + n0.toNat →
    parseContainer (n1 :: n0 :: p :: rest) = .error .countRange) ∧
  (∀ (n1 n0 p : Byte) (rest : List Byte), 1 ≤ 256 * n1.toNat + n0.toNat → 256 * n1.toNat + n0.toNat ≤ 256 →
    (p.toNat < 1 ∨ 8 < p.toNat) → parseContainer (n1 :: n0 :: p :: rest) = .error .padRange) ∧
  (∀ (n1 n0 p : Byte) (rest : List Byte) (c : Cause), 1 ≤ 256 * n1.toNat + n0.toNat →
    256 * n1.toNat + n0.toNat ≤ 256 → 1 ≤ p.toNat → p.toNat ≤ 8 →
    parseEntries (256 * n1.toNat + n0.toNat) rest [] (.node .null .null) = .error c →
    parseContainer (n1 :: n0 :: p :: rest) = .error c) ∧
  ∀ (n1 n0 p : Byte) (rest : List Byte) (ct : List CodeEntry) (t : CodeTree) (P : List Byte),
    1 ≤ 256 * n1.toNat + n0.toNat → 256 * n1.toNat + n0.toNat ≤ 256 → 1 ≤ p.toNat → p.toNat ≤ 8 →
    parseEntries (256 * n1.toNat + n0.toNat) rest [] (.node .null .null) = .ok (ct, t, P) →
    parseContainer (n1 :: n0 :: p :: rest) =
      if 8 * P.length < p.toNat then .error .padExceeds else .ok (ct, t, P, p)

/-- R142: the checks on one entry in their order, what an accepted entry adds, and the end of the entries. -/
def Obligations.DeserChecksAnEntryInOrder : Prop :=
  ∀ (n : Nat) (ct : List CodeEntry) (t : CodeTree),
    (∀ b : List Byte, parseEntries 0 b ct t = .ok (ct, t, b)) ∧
    (∀ b : List Byte, b.length < 2 → parseEntries (n + 1) b ct t = .error .truncEntry) ∧
    ∀ (s L : Byte) (rest : List Byte), ∃ m, m = (L.toNat + 7) / 8 ∧
      (L.toNat = 0 → parseEntries (n + 1) (s :: L :: rest) ct t = .error .zeroLen) ∧
      (L.toNat ≠ 0 → rest.length < m → parseEntries (n + 1) (s :: L :: rest) ct t = .error .truncCode) ∧
      (L.toNat ≠ 0 → m ≤ rest.length → 2 ^ L.toNat ≤ unBE (rest.take m) →
        parseEntries (n + 1) (s :: L :: rest) ct t = .error .codeWide) ∧
      ∀ c : Bits, L.toNat ≠ 0 → m ≤ rest.length → c.length = L.toNat → val c = unBE (rest.take m) →
        ((∃ e ∈ ct, e.sym = s) → parseEntries (n + 1) (s :: L :: rest) ct t = .error .dupSym) ∧
        ((¬ ∃ e ∈ ct, e.sym = s) → insertPath t c s = none →
          parseEntries (n + 1) (s :: L :: rest) ct t = .error .prefixConflict) ∧
        (∀ t', (¬ ∃ e ∈ ct, e.sym = s) → insertPath t c s = some t' →
          parseEntries (n + 1) (s :: L :: rest) ct t = parseEntries n (rest.drop m) (ct ++ [⟨s, c⟩]) t')

/-- R143: insertion below a Node, case by case, and the decode tree as the fold of insertion from Node(none, none). -/
def Obligations.InsertFollowsItsRule : Prop :=
  (∀ (l r ch : CodeTree) (b : Bool) (s : Byte), ch = child b (.node l r) →
    (ch ≠ .null → insertPath (.node l r) [b] s = none) ∧
    (ch = .null →
      insertPath (.node l r) [b] s = some (if b then .node l (.leaf s) else .node (.leaf s) r)) ∧
    ∀ c : Bits, c ≠ [] →
      (∀ a, ch = .leaf a → insertPath (.node l r) (b :: c) s = none) ∧
      (ch = .null → insertPath (.node l r) (b :: c) s =
        (insertPath (.node .null .null) c s).map fun t => if b then .node l t else .node t r) ∧
      ∀ l2 r2, ch = .node l2 r2 → insertPath (.node l r) (b :: c) s =
        (insertPath (.node l2 r2) c s).map fun t => if b then .node l t else .node t r) ∧
  decodeTree [] = some .null ∧
  (∀ e : CodeEntry, decodeTree [e] = insertPath (.node .null .null) e.code e.sym) ∧
  (∀ (ct : List CodeEntry) (e : CodeEntry), ct ≠ [] →
    decodeTree (ct ++ [e]) = (decodeTree ct).bind fun t => insertPath t e.code e.sym) ∧
  ∀ ct : List CodeEntry, TableOk ct → ct ≠ [] → ∃ l r, decodeTree ct = some (.node l r)

/-- The PREFIX_CONFLICT row of R186, and R143: inserting a code into the decode tree of a table conflicts exactly when the code equals, extends or is a
prefix of an earlier one; otherwise it gives the decode tree of the longer table. -/
def Obligations.InsertConflictsExactlyOnPrefixes : Prop :=
  ∀ (ct : List CodeEntry) (t : CodeTree) (c : Bits) (s : Byte), ct ≠ [] → (∀ e ∈ ct, e.code ≠ []) → c ≠ [] →
    decodeTree ct = some t →
    (insertPath t c s = none ↔ ∃ e ∈ ct, e.code <+: c ∨ c <+: e.code) ∧
      insertPath t c s = decodeTree (ct ++ [⟨s, c⟩])

/-- R145 and R24: after a successful parse TREE is the decode tree of the table, and the table has the invariants of
CTAB. -/
def Obligations.ParsedTreeIsTheDecodeTree : Prop :=
  ∀ (b : List Byte) (ct : List CodeEntry) (t : CodeTree) (P : List Byte) (p : Byte),
    parseContainer b = .ok (ct, t, P, p) → decodeTree ct = some t ∧ TableOk ct ∧ TreeOk t

/-- R146: OUTPOP returns the byte at OUTPOS and advances, or returns none and changes nothing; dropped under ERR = 1. -/
def Obligations.OutpopFollowsItsRule : Prop :=
  RejectsBadFields 0x33 false false ∧ ∀ s : State, encode .outpop = 0x3300000000000000 ∧
    (s.err = true → exec .outpop s = .next (s.answered false 0)) ∧
    (∀ b : Byte, s.err = false → s.outbuf[s.outpos.toNat]? = some b →
      exec .outpop s = .next ({ s with outpos := s.outpos + 1 }.answered true (BitVec.ofNat 32 b.toNat))) ∧
    (s.err = false → s.outbuf.length ≤ s.outpos.toNat → exec .outpop s = .next (s.answered false 0))

/-- R79, R146: DRAIN returns the bytes of OUT from OUTPOS on, one a response, and then a response with DVALID = 0; under
ERR = 1 it is one dropped OUTPOP. The bound `drain` gives the host's loop, and `drainCommands` as the list of its
OUTPOPs, are the model's choice (log 18): a larger bound changes nothing, and the list has the loop's effect. -/
def Obligations.DrainReturnsTheRestOfOut : Prop :=
  ∀ s : State, BlockInv s →
    (∀ more : Nat, drainLoop (s.outbuf.length - s.outpos.toNat + 1 + more) s = drain s) ∧
    drain s = runCommands (drainCommands s) s ∧
    (s.err = true → drain s = .next (s.answered false 0)) ∧
    (s.err = false → drain s = .next
      { s with
          outpos := BitVec.ofNat 32 s.outbuf.length,
          responses := s.responses ++
            (s.outbuf.drop s.outpos.toNat).map
              (fun b => responseWord (statusWord s) true (BitVec.ofNat 32 b.toNat)) ++
            [responseWord (statusWord s) false 0] })

/-! ### ENC, DEC -/

/-- R160: ENC appends the code of the symbol's entry; its checks in their order (class 3, cause 4; class 2, cause 1;
class 4, cause 3); dropped under ERR = 1. -/
def Obligations.EncFollowsItsRule : Prop :=
  RejectsBadFields 0x40 true false ∧ ∀ (s : State) (sym : Byte),
    (encode (.enc sym)).toNat = 0x40 * 2 ^ 56 + sym.toNat * 2 ^ 48 ∧
    (s.err = true → exec (.enc sym) s = .next (s.answered false 0)) ∧
    (s.err = false → s.cv = false →
      exec (.enc sym) s = .next ({ s with err := true, eclass := 3, ecause := 4 }.answered false 0)) ∧
    (s.err = false → s.cv = true → (¬ ∃ e ∈ s.ctab, e.sym = sym) →
      exec (.enc sym) s = .next ({ s with err := true, eclass := 2, ecause := 1 }.answered false 0)) ∧
    ∀ e : CodeEntry, s.err = false → s.cv = true → (s.ctab.map fun x => x.sym).Nodup → e ∈ s.ctab → e.sym = sym →
      (s.cfg.bitCap < s.bitseq.length + e.code.length →
        exec (.enc sym) s = .next ({ s with err := true, eclass := 4, ecause := 3 }.answered false 0)) ∧
      (s.bitseq.length + e.code.length ≤ s.cfg.bitCap →
        exec (.enc sym) s = .next ({ s with bitseq := s.bitseq ++ e.code }.answered false 0))

/-- R161, which the spec marks derived: ENC of the bytes of a string, one after another, appends their codes in order. On
a table that lists a symbol more than once, in no reachable state, a byte's code is that of its first entry, which is the
model's choice (log 20). -/
def Obligations.EncodingAStringAppendsItsCodes : Prop :=
  ∀ (d : List Byte) (s : State), s.err = false → s.cv = true → (∀ b ∈ d, b ∈ s.ctab.map fun e => e.sym) →
    s.bitseq.length + (encodeAll s.ctab d).length ≤ s.cfg.bitCap →
    ∃ t, runCommands (expand (.encstr d)) s = .next t ∧
      t = { s with
              bitseq := s.bitseq ++ encodeAll s.ctab d,
              responses := s.responses ++ List.replicate d.length (responseWord (statusWord s) false 0) }

/-- R162: DEC decodes BITSEQ by the decode tree of CTAB into OUT; its checks in their order; dropped under ERR = 1. -/
def Obligations.DecFollowsItsRule : Prop :=
  RejectsBadFields 0x41 false false ∧ ∀ s : State, encode .dec = 0x4100000000000000 ∧
    (s.err = true → exec .dec s = .next (s.answered false 0)) ∧
    (s.err = false → s.cv = false → exec .dec s = .next (s.failed .noTable)) ∧
    (s.err = false → s.cv = true → TableOk s.ctab → ∃ D, decodeTree s.ctab = some D ∧
      (∀ c, decodeBits D s.bitseq = .error c → exec .dec s = .next (s.failed c)) ∧
      ∀ out, decodeBits D s.bitseq = .ok out →
        (s.cfg.outCap < out.length → exec .dec s = .next (s.failed .outFull)) ∧
        (out.length ≤ s.cfg.outCap →
          exec .dec s = .next ({ s with outbuf := out, outpos := 0 }.answered false 0)))

/-- R163: the decode walk. A path to a leaf emits its symbol and starts again at the root; a path to a null child is
STREAM_NULL_CHILD; bits that end inside a path are STREAM_END_MID_PATH; no bits decode to nothing. -/
def Obligations.DecodeWalksTheTree : Prop :=
  (∀ root : CodeTree, decodeBits root [] = .ok []) ∧
  (∀ B : Bits, B ≠ [] → decodeBits .null B = .error .streamNullChild) ∧
  ∀ (l r : CodeTree) (c B : Bits),
    (∀ a out, follow (.node l r) c = .leaf a → decodeBits (.node l r) B = .ok out →
      decodeBits (.node l r) (c ++ B) = .ok (a :: out)) ∧
    (∀ a e, follow (.node l r) c = .leaf a → decodeBits (.node l r) B = .error e →
      decodeBits (.node l r) (c ++ B) = .error e) ∧
    (∀ l' r' b, follow (.node l r) c = .node l' r' → child b (.node l' r') = .null →
      decodeBits (.node l r) (c ++ b :: B) = .error .streamNullChild) ∧
    (∀ l' r', c ≠ [] → follow (.node l r) c = .node l' r' →
      decodeBits (.node l r) c = .error .streamEndMidPath)

/-- R164: decoding inverts encoding for every table the block holds. -/
def Obligations.DecodingInvertsEncoding : Prop :=
  ∀ (ct : List CodeEntry) (d : List Byte), TableOk ct → (∀ b ∈ d, b ∈ ct.map fun e => e.sym) →
    ∃ D, decodeTree ct = some D ∧ decodeBits D (encodeAll ct d) = .ok d

/-! ### Round trips -/

/-- R147: parsing a blob SER writes gives back the table in its order, the packed bytes and the padding, with the decode
tree of the table. The blob of the empty table holds no packed bytes, so there PACKBUF and PAD come back empty and 0
(R85, R137). -/
def Obligations.ContainerRoundTrip : Prop :=
  ∀ (ct : List CodeEntry) (P : List Byte) (p : Byte) (blob : List Byte), TableOk ct → p.toNat ≤ 8 * P.length →
    serialize ct P p = .ok blob →
    ∃ t, decodeTree ct = some t ∧
      parseContainer blob = .ok (if ct = [] then ([], t, [], 0) else (ct, t, P, p))

/-- R147: the decode tree of the table of a built tree of two or more symbols is that tree; of a single symbol s it is
Node(some (Leaf s), none), and of none it is none. -/
def Obligations.DecodeTreeOfABuiltTreeIsTheTree : Prop :=
  (∀ l r : CodeTree, Full (.node l r) → decodeTree (extract (.node l r)) = some (.node l r)) ∧
  (∀ a : Byte, decodeTree (extract (.leaf a)) = some (.node (.leaf a) .null)) ∧
  decodeTree (extract .null) = some .null

/-- R112: EXTRACT on the decode tree of a table gives the same set of entries. -/
def Obligations.ExtractOfADecodeTreeGivesTheTable : Prop :=
  ∀ (ct : List CodeEntry) (t : CodeTree), TableOk ct → decodeTree ct = some t → (extract t).Perm ct

/-- §8 as R142 quotes it: a valid container cut inside its table region is MalformedContainer, and cut right after it
PAD_EXCEEDS. -/
def Obligations.TruncatedTableRegionIsMalformed : Prop :=
  ∀ (ct : List CodeEntry) (P : List Byte) (p : Byte) (blob : List Byte), TableOk ct → ct ≠ [] →
    serialize ct P p = .ok blob →
    (∀ n < 3 + tableLength ct, ∃ c ∈ [Cause.truncHeader, .truncEntry, .truncCode],
      parseContainer (blob.take n) = .error c) ∧
    parseContainer (blob.take (3 + tableLength ct)) = .error .padExceeds

/-- R165: compressing any byte string that fits the capacities, with a symbol table that holds its symbols, and
decompressing the blob on a fresh block gives the byte string back. -/
def Obligations.DecompressInvertsCompress : Prop :=
  ∀ (c : Config) (table : List SymEntry) (tree : CodeTree) (d : List Byte), c.Legal → SymlistOk table →
    build table = some tree → (∀ b ∈ d, b ∈ table.map fun e => e.sym) →
    (encodeAll (extract tree) d).length ≤ c.bitCap →
    blobLength (extract tree) (packBytes (encodeAll (extract tree) d)) ≤ c.outCap →
    blobLength (extract tree) (packBytes (encodeAll (extract tree) d)) ≤ c.inCap →
    d.length ≤ c.outCap →
    ∃ s t, runCommands (compressCommands table d) (State.resetWith c) = .next s ∧ s.err = false ∧
      runCommands (decompressCommands s.outbuf) (State.resetWith c) = .next t ∧ t.err = false ∧
      t.outbuf = d ∧ t.outpos = 0
end

