-- ==== Sys2Proof/Laws/State.lean ====
section
/-! SUPPORT. What each named update of State leaves in each field: one lemma per field per update. -/

namespace Sys2Proof.Machine

variable (s : State)

/-! ### pushSym -/

@[simp] theorem State.pushSym_err (e : SymEntry) : (s.pushSym e).err = s.err := rfl
@[simp] theorem State.pushSym_eclass (e : SymEntry) : (s.pushSym e).eclass = s.eclass := rfl
@[simp] theorem State.pushSym_ecause (e : SymEntry) : (s.pushSym e).ecause = s.ecause := rfl
@[simp] theorem State.pushSym_tv (e : SymEntry) : (s.pushSym e).tv = s.tv := rfl
@[simp] theorem State.pushSym_cv (e : SymEntry) : (s.pushSym e).cv = s.cv := rfl
@[simp] theorem State.pushSym_pv (e : SymEntry) : (s.pushSym e).pv = s.pv := rfl
@[simp] theorem State.pushSym_symlist (e : SymEntry) : (s.pushSym e).symlist = s.symlist ++ [e] := rfl
@[simp] theorem State.pushSym_tree (e : SymEntry) : (s.pushSym e).tree = s.tree := rfl
@[simp] theorem State.pushSym_ctab (e : SymEntry) : (s.pushSym e).ctab = s.ctab := rfl
@[simp] theorem State.pushSym_bitseq (e : SymEntry) : (s.pushSym e).bitseq = s.bitseq := rfl
@[simp] theorem State.pushSym_packbuf (e : SymEntry) : (s.pushSym e).packbuf = s.packbuf := rfl
@[simp] theorem State.pushSym_pad (e : SymEntry) : (s.pushSym e).pad = s.pad := rfl
@[simp] theorem State.pushSym_inbuf (e : SymEntry) : (s.pushSym e).inbuf = s.inbuf := rfl
@[simp] theorem State.pushSym_outbuf (e : SymEntry) : (s.pushSym e).outbuf = s.outbuf := rfl
@[simp] theorem State.pushSym_outpos (e : SymEntry) : (s.pushSym e).outpos = s.outpos := rfl
@[simp] theorem State.pushSym_cfg (e : SymEntry) : (s.pushSym e).cfg = s.cfg := rfl
@[simp] theorem State.pushSym_events (e : SymEntry) : (s.pushSym e).events = s.events := rfl
@[simp] theorem State.pushSym_responses (e : SymEntry) : (s.pushSym e).responses = s.responses := rfl

/-! ### setTree -/

@[simp] theorem State.setTree_err (t : CodeTree) : (s.setTree t).err = s.err := rfl
@[simp] theorem State.setTree_eclass (t : CodeTree) : (s.setTree t).eclass = s.eclass := rfl
@[simp] theorem State.setTree_ecause (t : CodeTree) : (s.setTree t).ecause = s.ecause := rfl
@[simp] theorem State.setTree_tv (t : CodeTree) : (s.setTree t).tv = true := rfl
@[simp] theorem State.setTree_cv (t : CodeTree) : (s.setTree t).cv = s.cv := rfl
@[simp] theorem State.setTree_pv (t : CodeTree) : (s.setTree t).pv = s.pv := rfl
@[simp] theorem State.setTree_symlist (t : CodeTree) : (s.setTree t).symlist = s.symlist := rfl
@[simp] theorem State.setTree_tree (t : CodeTree) : (s.setTree t).tree = t := rfl
@[simp] theorem State.setTree_ctab (t : CodeTree) : (s.setTree t).ctab = s.ctab := rfl
@[simp] theorem State.setTree_bitseq (t : CodeTree) : (s.setTree t).bitseq = s.bitseq := rfl
@[simp] theorem State.setTree_packbuf (t : CodeTree) : (s.setTree t).packbuf = s.packbuf := rfl
@[simp] theorem State.setTree_pad (t : CodeTree) : (s.setTree t).pad = s.pad := rfl
@[simp] theorem State.setTree_inbuf (t : CodeTree) : (s.setTree t).inbuf = s.inbuf := rfl
@[simp] theorem State.setTree_outbuf (t : CodeTree) : (s.setTree t).outbuf = s.outbuf := rfl
@[simp] theorem State.setTree_outpos (t : CodeTree) : (s.setTree t).outpos = s.outpos := rfl
@[simp] theorem State.setTree_cfg (t : CodeTree) : (s.setTree t).cfg = s.cfg := rfl
@[simp] theorem State.setTree_events (t : CodeTree) : (s.setTree t).events = s.events := rfl
@[simp] theorem State.setTree_responses (t : CodeTree) : (s.setTree t).responses = s.responses := rfl

/-! ### setTable -/

@[simp] theorem State.setTable_err (ct : List CodeEntry) : (s.setTable ct).err = s.err := rfl
@[simp] theorem State.setTable_eclass (ct : List CodeEntry) : (s.setTable ct).eclass = s.eclass := rfl
@[simp] theorem State.setTable_ecause (ct : List CodeEntry) : (s.setTable ct).ecause = s.ecause := rfl
@[simp] theorem State.setTable_tv (ct : List CodeEntry) : (s.setTable ct).tv = s.tv := rfl
@[simp] theorem State.setTable_cv (ct : List CodeEntry) : (s.setTable ct).cv = true := rfl
@[simp] theorem State.setTable_pv (ct : List CodeEntry) : (s.setTable ct).pv = s.pv := rfl
@[simp] theorem State.setTable_symlist (ct : List CodeEntry) : (s.setTable ct).symlist = s.symlist := rfl
@[simp] theorem State.setTable_tree (ct : List CodeEntry) : (s.setTable ct).tree = s.tree := rfl
@[simp] theorem State.setTable_ctab (ct : List CodeEntry) : (s.setTable ct).ctab = ct := rfl
@[simp] theorem State.setTable_bitseq (ct : List CodeEntry) : (s.setTable ct).bitseq = s.bitseq := rfl
@[simp] theorem State.setTable_packbuf (ct : List CodeEntry) : (s.setTable ct).packbuf = s.packbuf := rfl
@[simp] theorem State.setTable_pad (ct : List CodeEntry) : (s.setTable ct).pad = s.pad := rfl
@[simp] theorem State.setTable_inbuf (ct : List CodeEntry) : (s.setTable ct).inbuf = s.inbuf := rfl
@[simp] theorem State.setTable_outbuf (ct : List CodeEntry) : (s.setTable ct).outbuf = s.outbuf := rfl
@[simp] theorem State.setTable_outpos (ct : List CodeEntry) : (s.setTable ct).outpos = s.outpos := rfl
@[simp] theorem State.setTable_cfg (ct : List CodeEntry) : (s.setTable ct).cfg = s.cfg := rfl
@[simp] theorem State.setTable_events (ct : List CodeEntry) : (s.setTable ct).events = s.events := rfl
@[simp] theorem State.setTable_responses (ct : List CodeEntry) : (s.setTable ct).responses = s.responses := rfl

/-! ### setPacked -/

@[simp] theorem State.setPacked_err (P : List Byte) (p : Byte) : (s.setPacked P p).err = s.err := rfl
@[simp] theorem State.setPacked_eclass (P : List Byte) (p : Byte) : (s.setPacked P p).eclass = s.eclass := rfl
@[simp] theorem State.setPacked_ecause (P : List Byte) (p : Byte) : (s.setPacked P p).ecause = s.ecause := rfl
@[simp] theorem State.setPacked_tv (P : List Byte) (p : Byte) : (s.setPacked P p).tv = s.tv := rfl
@[simp] theorem State.setPacked_cv (P : List Byte) (p : Byte) : (s.setPacked P p).cv = s.cv := rfl
@[simp] theorem State.setPacked_pv (P : List Byte) (p : Byte) : (s.setPacked P p).pv = true := rfl
@[simp] theorem State.setPacked_symlist (P : List Byte) (p : Byte) : (s.setPacked P p).symlist = s.symlist := rfl
@[simp] theorem State.setPacked_tree (P : List Byte) (p : Byte) : (s.setPacked P p).tree = s.tree := rfl
@[simp] theorem State.setPacked_ctab (P : List Byte) (p : Byte) : (s.setPacked P p).ctab = s.ctab := rfl
@[simp] theorem State.setPacked_bitseq (P : List Byte) (p : Byte) : (s.setPacked P p).bitseq = s.bitseq := rfl
@[simp] theorem State.setPacked_packbuf (P : List Byte) (p : Byte) : (s.setPacked P p).packbuf = P := rfl
@[simp] theorem State.setPacked_pad (P : List Byte) (p : Byte) : (s.setPacked P p).pad = p := rfl
@[simp] theorem State.setPacked_inbuf (P : List Byte) (p : Byte) : (s.setPacked P p).inbuf = s.inbuf := rfl
@[simp] theorem State.setPacked_outbuf (P : List Byte) (p : Byte) : (s.setPacked P p).outbuf = s.outbuf := rfl
@[simp] theorem State.setPacked_outpos (P : List Byte) (p : Byte) : (s.setPacked P p).outpos = s.outpos := rfl
@[simp] theorem State.setPacked_cfg (P : List Byte) (p : Byte) : (s.setPacked P p).cfg = s.cfg := rfl
@[simp] theorem State.setPacked_events (P : List Byte) (p : Byte) : (s.setPacked P p).events = s.events := rfl
@[simp] theorem State.setPacked_responses (P : List Byte) (p : Byte) : (s.setPacked P p).responses = s.responses := rfl

/-! ### setBits -/

@[simp] theorem State.setBits_err (B : Bits) : (s.setBits B).err = s.err := rfl
@[simp] theorem State.setBits_eclass (B : Bits) : (s.setBits B).eclass = s.eclass := rfl
@[simp] theorem State.setBits_ecause (B : Bits) : (s.setBits B).ecause = s.ecause := rfl
@[simp] theorem State.setBits_tv (B : Bits) : (s.setBits B).tv = s.tv := rfl
@[simp] theorem State.setBits_cv (B : Bits) : (s.setBits B).cv = s.cv := rfl
@[simp] theorem State.setBits_pv (B : Bits) : (s.setBits B).pv = s.pv := rfl
@[simp] theorem State.setBits_symlist (B : Bits) : (s.setBits B).symlist = s.symlist := rfl
@[simp] theorem State.setBits_tree (B : Bits) : (s.setBits B).tree = s.tree := rfl
@[simp] theorem State.setBits_ctab (B : Bits) : (s.setBits B).ctab = s.ctab := rfl
@[simp] theorem State.setBits_bitseq (B : Bits) : (s.setBits B).bitseq = B := rfl
@[simp] theorem State.setBits_packbuf (B : Bits) : (s.setBits B).packbuf = s.packbuf := rfl
@[simp] theorem State.setBits_pad (B : Bits) : (s.setBits B).pad = s.pad := rfl
@[simp] theorem State.setBits_inbuf (B : Bits) : (s.setBits B).inbuf = s.inbuf := rfl
@[simp] theorem State.setBits_outbuf (B : Bits) : (s.setBits B).outbuf = s.outbuf := rfl
@[simp] theorem State.setBits_outpos (B : Bits) : (s.setBits B).outpos = s.outpos := rfl
@[simp] theorem State.setBits_cfg (B : Bits) : (s.setBits B).cfg = s.cfg := rfl
@[simp] theorem State.setBits_events (B : Bits) : (s.setBits B).events = s.events := rfl
@[simp] theorem State.setBits_responses (B : Bits) : (s.setBits B).responses = s.responses := rfl

/-! ### pushIn -/

@[simp] theorem State.pushIn_err (b : Byte) : (s.pushIn b).err = s.err := rfl
@[simp] theorem State.pushIn_eclass (b : Byte) : (s.pushIn b).eclass = s.eclass := rfl
@[simp] theorem State.pushIn_ecause (b : Byte) : (s.pushIn b).ecause = s.ecause := rfl
@[simp] theorem State.pushIn_tv (b : Byte) : (s.pushIn b).tv = s.tv := rfl
@[simp] theorem State.pushIn_cv (b : Byte) : (s.pushIn b).cv = s.cv := rfl
@[simp] theorem State.pushIn_pv (b : Byte) : (s.pushIn b).pv = s.pv := rfl
@[simp] theorem State.pushIn_symlist (b : Byte) : (s.pushIn b).symlist = s.symlist := rfl
@[simp] theorem State.pushIn_tree (b : Byte) : (s.pushIn b).tree = s.tree := rfl
@[simp] theorem State.pushIn_ctab (b : Byte) : (s.pushIn b).ctab = s.ctab := rfl
@[simp] theorem State.pushIn_bitseq (b : Byte) : (s.pushIn b).bitseq = s.bitseq := rfl
@[simp] theorem State.pushIn_packbuf (b : Byte) : (s.pushIn b).packbuf = s.packbuf := rfl
@[simp] theorem State.pushIn_pad (b : Byte) : (s.pushIn b).pad = s.pad := rfl
@[simp] theorem State.pushIn_inbuf (b : Byte) : (s.pushIn b).inbuf = s.inbuf ++ [b] := rfl
@[simp] theorem State.pushIn_outbuf (b : Byte) : (s.pushIn b).outbuf = s.outbuf := rfl
@[simp] theorem State.pushIn_outpos (b : Byte) : (s.pushIn b).outpos = s.outpos := rfl
@[simp] theorem State.pushIn_cfg (b : Byte) : (s.pushIn b).cfg = s.cfg := rfl
@[simp] theorem State.pushIn_events (b : Byte) : (s.pushIn b).events = s.events := rfl
@[simp] theorem State.pushIn_responses (b : Byte) : (s.pushIn b).responses = s.responses := rfl

/-! ### setOut -/

@[simp] theorem State.setOut_err (out : List Byte) : (s.setOut out).err = s.err := rfl
@[simp] theorem State.setOut_eclass (out : List Byte) : (s.setOut out).eclass = s.eclass := rfl
@[simp] theorem State.setOut_ecause (out : List Byte) : (s.setOut out).ecause = s.ecause := rfl
@[simp] theorem State.setOut_tv (out : List Byte) : (s.setOut out).tv = s.tv := rfl
@[simp] theorem State.setOut_cv (out : List Byte) : (s.setOut out).cv = s.cv := rfl
@[simp] theorem State.setOut_pv (out : List Byte) : (s.setOut out).pv = s.pv := rfl
@[simp] theorem State.setOut_symlist (out : List Byte) : (s.setOut out).symlist = s.symlist := rfl
@[simp] theorem State.setOut_tree (out : List Byte) : (s.setOut out).tree = s.tree := rfl
@[simp] theorem State.setOut_ctab (out : List Byte) : (s.setOut out).ctab = s.ctab := rfl
@[simp] theorem State.setOut_bitseq (out : List Byte) : (s.setOut out).bitseq = s.bitseq := rfl
@[simp] theorem State.setOut_packbuf (out : List Byte) : (s.setOut out).packbuf = s.packbuf := rfl
@[simp] theorem State.setOut_pad (out : List Byte) : (s.setOut out).pad = s.pad := rfl
@[simp] theorem State.setOut_inbuf (out : List Byte) : (s.setOut out).inbuf = s.inbuf := rfl
@[simp] theorem State.setOut_outbuf (out : List Byte) : (s.setOut out).outbuf = out := rfl
@[simp] theorem State.setOut_outpos (out : List Byte) : (s.setOut out).outpos = 0 := rfl
@[simp] theorem State.setOut_cfg (out : List Byte) : (s.setOut out).cfg = s.cfg := rfl
@[simp] theorem State.setOut_events (out : List Byte) : (s.setOut out).events = s.events := rfl
@[simp] theorem State.setOut_responses (out : List Byte) : (s.setOut out).responses = s.responses := rfl

/-! ### advanceOut -/

@[simp] theorem State.advanceOut_err : s.advanceOut.err = s.err := rfl
@[simp] theorem State.advanceOut_eclass : s.advanceOut.eclass = s.eclass := rfl
@[simp] theorem State.advanceOut_ecause : s.advanceOut.ecause = s.ecause := rfl
@[simp] theorem State.advanceOut_tv : s.advanceOut.tv = s.tv := rfl
@[simp] theorem State.advanceOut_cv : s.advanceOut.cv = s.cv := rfl
@[simp] theorem State.advanceOut_pv : s.advanceOut.pv = s.pv := rfl
@[simp] theorem State.advanceOut_symlist : s.advanceOut.symlist = s.symlist := rfl
@[simp] theorem State.advanceOut_tree : s.advanceOut.tree = s.tree := rfl
@[simp] theorem State.advanceOut_ctab : s.advanceOut.ctab = s.ctab := rfl
@[simp] theorem State.advanceOut_bitseq : s.advanceOut.bitseq = s.bitseq := rfl
@[simp] theorem State.advanceOut_packbuf : s.advanceOut.packbuf = s.packbuf := rfl
@[simp] theorem State.advanceOut_pad : s.advanceOut.pad = s.pad := rfl
@[simp] theorem State.advanceOut_inbuf : s.advanceOut.inbuf = s.inbuf := rfl
@[simp] theorem State.advanceOut_outbuf : s.advanceOut.outbuf = s.outbuf := rfl
@[simp] theorem State.advanceOut_outpos : s.advanceOut.outpos = s.outpos + 1 := rfl
@[simp] theorem State.advanceOut_cfg : s.advanceOut.cfg = s.cfg := rfl
@[simp] theorem State.advanceOut_events : s.advanceOut.events = s.events := rfl
@[simp] theorem State.advanceOut_responses : s.advanceOut.responses = s.responses := rfl

/-! ### commitContainer -/

@[simp] theorem State.commitContainer_err (ct : List CodeEntry) (t : CodeTree) (P : List Byte) (p : Byte) : (s.commitContainer ct t P p).err = s.err := rfl
@[simp] theorem State.commitContainer_eclass (ct : List CodeEntry) (t : CodeTree) (P : List Byte) (p : Byte) : (s.commitContainer ct t P p).eclass = s.eclass := rfl
@[simp] theorem State.commitContainer_ecause (ct : List CodeEntry) (t : CodeTree) (P : List Byte) (p : Byte) : (s.commitContainer ct t P p).ecause = s.ecause := rfl
@[simp] theorem State.commitContainer_tv (ct : List CodeEntry) (t : CodeTree) (P : List Byte) (p : Byte) : (s.commitContainer ct t P p).tv = true := rfl
@[simp] theorem State.commitContainer_cv (ct : List CodeEntry) (t : CodeTree) (P : List Byte) (p : Byte) : (s.commitContainer ct t P p).cv = true := rfl
@[simp] theorem State.commitContainer_pv (ct : List CodeEntry) (t : CodeTree) (P : List Byte) (p : Byte) : (s.commitContainer ct t P p).pv = true := rfl
@[simp] theorem State.commitContainer_symlist (ct : List CodeEntry) (t : CodeTree) (P : List Byte) (p : Byte) : (s.commitContainer ct t P p).symlist = s.symlist := rfl
@[simp] theorem State.commitContainer_tree (ct : List CodeEntry) (t : CodeTree) (P : List Byte) (p : Byte) : (s.commitContainer ct t P p).tree = t := rfl
@[simp] theorem State.commitContainer_ctab (ct : List CodeEntry) (t : CodeTree) (P : List Byte) (p : Byte) : (s.commitContainer ct t P p).ctab = ct := rfl
@[simp] theorem State.commitContainer_bitseq (ct : List CodeEntry) (t : CodeTree) (P : List Byte) (p : Byte) : (s.commitContainer ct t P p).bitseq = s.bitseq := rfl
@[simp] theorem State.commitContainer_packbuf (ct : List CodeEntry) (t : CodeTree) (P : List Byte) (p : Byte) : (s.commitContainer ct t P p).packbuf = P := rfl
@[simp] theorem State.commitContainer_pad (ct : List CodeEntry) (t : CodeTree) (P : List Byte) (p : Byte) : (s.commitContainer ct t P p).pad = p := rfl
@[simp] theorem State.commitContainer_inbuf (ct : List CodeEntry) (t : CodeTree) (P : List Byte) (p : Byte) : (s.commitContainer ct t P p).inbuf = [] := rfl
@[simp] theorem State.commitContainer_outbuf (ct : List CodeEntry) (t : CodeTree) (P : List Byte) (p : Byte) : (s.commitContainer ct t P p).outbuf = s.outbuf := rfl
@[simp] theorem State.commitContainer_outpos (ct : List CodeEntry) (t : CodeTree) (P : List Byte) (p : Byte) : (s.commitContainer ct t P p).outpos = s.outpos := rfl
@[simp] theorem State.commitContainer_cfg (ct : List CodeEntry) (t : CodeTree) (P : List Byte) (p : Byte) : (s.commitContainer ct t P p).cfg = s.cfg := rfl
@[simp] theorem State.commitContainer_events (ct : List CodeEntry) (t : CodeTree) (P : List Byte) (p : Byte) : (s.commitContainer ct t P p).events = s.events := rfl
@[simp] theorem State.commitContainer_responses (ct : List CodeEntry) (t : CodeTree) (P : List Byte) (p : Byte) : (s.commitContainer ct t P p).responses = s.responses := rfl

/-! ### recordError -/

@[simp] theorem State.recordError_err (c : Cause) : (s.recordError c).err = true := rfl
@[simp] theorem State.recordError_eclass (c : Cause) : (s.recordError c).eclass = causeClass c := rfl
@[simp] theorem State.recordError_ecause (c : Cause) : (s.recordError c).ecause = causeCode c := rfl
@[simp] theorem State.recordError_tv (c : Cause) : (s.recordError c).tv = s.tv := rfl
@[simp] theorem State.recordError_cv (c : Cause) : (s.recordError c).cv = s.cv := rfl
@[simp] theorem State.recordError_pv (c : Cause) : (s.recordError c).pv = s.pv := rfl
@[simp] theorem State.recordError_symlist (c : Cause) : (s.recordError c).symlist = s.symlist := rfl
@[simp] theorem State.recordError_tree (c : Cause) : (s.recordError c).tree = s.tree := rfl
@[simp] theorem State.recordError_ctab (c : Cause) : (s.recordError c).ctab = s.ctab := rfl
@[simp] theorem State.recordError_bitseq (c : Cause) : (s.recordError c).bitseq = s.bitseq := rfl
@[simp] theorem State.recordError_packbuf (c : Cause) : (s.recordError c).packbuf = s.packbuf := rfl
@[simp] theorem State.recordError_pad (c : Cause) : (s.recordError c).pad = s.pad := rfl
@[simp] theorem State.recordError_inbuf (c : Cause) : (s.recordError c).inbuf = s.inbuf := rfl
@[simp] theorem State.recordError_outbuf (c : Cause) : (s.recordError c).outbuf = s.outbuf := rfl
@[simp] theorem State.recordError_outpos (c : Cause) : (s.recordError c).outpos = s.outpos := rfl
@[simp] theorem State.recordError_cfg (c : Cause) : (s.recordError c).cfg = s.cfg := rfl
@[simp] theorem State.recordError_events (c : Cause) : (s.recordError c).events = s.events := rfl
@[simp] theorem State.recordError_responses (c : Cause) : (s.recordError c).responses = s.responses := rfl

/-! ### clearAll -/

@[simp] theorem State.clearAll_err : s.clearAll.err = false := rfl
@[simp] theorem State.clearAll_eclass : s.clearAll.eclass = 0 := rfl
@[simp] theorem State.clearAll_ecause : s.clearAll.ecause = 0 := rfl
@[simp] theorem State.clearAll_tv : s.clearAll.tv = false := rfl
@[simp] theorem State.clearAll_cv : s.clearAll.cv = false := rfl
@[simp] theorem State.clearAll_pv : s.clearAll.pv = false := rfl
@[simp] theorem State.clearAll_symlist : s.clearAll.symlist = [] := rfl
@[simp] theorem State.clearAll_tree : s.clearAll.tree = .null := rfl
@[simp] theorem State.clearAll_ctab : s.clearAll.ctab = [] := rfl
@[simp] theorem State.clearAll_bitseq : s.clearAll.bitseq = [] := rfl
@[simp] theorem State.clearAll_packbuf : s.clearAll.packbuf = [] := rfl
@[simp] theorem State.clearAll_pad : s.clearAll.pad = 0 := rfl
@[simp] theorem State.clearAll_inbuf : s.clearAll.inbuf = [] := rfl
@[simp] theorem State.clearAll_outbuf : s.clearAll.outbuf = [] := rfl
@[simp] theorem State.clearAll_outpos : s.clearAll.outpos = 0 := rfl
@[simp] theorem State.clearAll_cfg : s.clearAll.cfg = s.cfg := rfl
@[simp] theorem State.clearAll_events : s.clearAll.events = s.events := rfl
@[simp] theorem State.clearAll_responses : s.clearAll.responses = s.responses := rfl

/-! ### logResponse -/

@[simp] theorem State.logResponse_err (w : Word) : (s.logResponse w).err = s.err := rfl
@[simp] theorem State.logResponse_eclass (w : Word) : (s.logResponse w).eclass = s.eclass := rfl
@[simp] theorem State.logResponse_ecause (w : Word) : (s.logResponse w).ecause = s.ecause := rfl
@[simp] theorem State.logResponse_tv (w : Word) : (s.logResponse w).tv = s.tv := rfl
@[simp] theorem State.logResponse_cv (w : Word) : (s.logResponse w).cv = s.cv := rfl
@[simp] theorem State.logResponse_pv (w : Word) : (s.logResponse w).pv = s.pv := rfl
@[simp] theorem State.logResponse_symlist (w : Word) : (s.logResponse w).symlist = s.symlist := rfl
@[simp] theorem State.logResponse_tree (w : Word) : (s.logResponse w).tree = s.tree := rfl
@[simp] theorem State.logResponse_ctab (w : Word) : (s.logResponse w).ctab = s.ctab := rfl
@[simp] theorem State.logResponse_bitseq (w : Word) : (s.logResponse w).bitseq = s.bitseq := rfl
@[simp] theorem State.logResponse_packbuf (w : Word) : (s.logResponse w).packbuf = s.packbuf := rfl
@[simp] theorem State.logResponse_pad (w : Word) : (s.logResponse w).pad = s.pad := rfl
@[simp] theorem State.logResponse_inbuf (w : Word) : (s.logResponse w).inbuf = s.inbuf := rfl
@[simp] theorem State.logResponse_outbuf (w : Word) : (s.logResponse w).outbuf = s.outbuf := rfl
@[simp] theorem State.logResponse_outpos (w : Word) : (s.logResponse w).outpos = s.outpos := rfl
@[simp] theorem State.logResponse_cfg (w : Word) : (s.logResponse w).cfg = s.cfg := rfl
@[simp] theorem State.logResponse_events (w : Word) : (s.logResponse w).events = s.events := rfl
@[simp] theorem State.logResponse_responses (w : Word) : (s.logResponse w).responses = s.responses ++ [w] := rfl

/-! ### answered -/

@[simp] theorem State.answered_err (v : Bool) (d : Data) : (s.answered v d).err = s.err := rfl
@[simp] theorem State.answered_eclass (v : Bool) (d : Data) : (s.answered v d).eclass = s.eclass := rfl
@[simp] theorem State.answered_ecause (v : Bool) (d : Data) : (s.answered v d).ecause = s.ecause := rfl
@[simp] theorem State.answered_tv (v : Bool) (d : Data) : (s.answered v d).tv = s.tv := rfl
@[simp] theorem State.answered_cv (v : Bool) (d : Data) : (s.answered v d).cv = s.cv := rfl
@[simp] theorem State.answered_pv (v : Bool) (d : Data) : (s.answered v d).pv = s.pv := rfl
@[simp] theorem State.answered_symlist (v : Bool) (d : Data) : (s.answered v d).symlist = s.symlist := rfl
@[simp] theorem State.answered_tree (v : Bool) (d : Data) : (s.answered v d).tree = s.tree := rfl
@[simp] theorem State.answered_ctab (v : Bool) (d : Data) : (s.answered v d).ctab = s.ctab := rfl
@[simp] theorem State.answered_bitseq (v : Bool) (d : Data) : (s.answered v d).bitseq = s.bitseq := rfl
@[simp] theorem State.answered_packbuf (v : Bool) (d : Data) : (s.answered v d).packbuf = s.packbuf := rfl
@[simp] theorem State.answered_pad (v : Bool) (d : Data) : (s.answered v d).pad = s.pad := rfl
@[simp] theorem State.answered_inbuf (v : Bool) (d : Data) : (s.answered v d).inbuf = s.inbuf := rfl
@[simp] theorem State.answered_outbuf (v : Bool) (d : Data) : (s.answered v d).outbuf = s.outbuf := rfl
@[simp] theorem State.answered_outpos (v : Bool) (d : Data) : (s.answered v d).outpos = s.outpos := rfl
@[simp] theorem State.answered_cfg (v : Bool) (d : Data) : (s.answered v d).cfg = s.cfg := rfl
@[simp] theorem State.answered_events (v : Bool) (d : Data) : (s.answered v d).events = s.events := rfl
@[simp] theorem State.answered_responses (v : Bool) (d : Data) : (s.answered v d).responses = s.responses ++ [responseWord (statusWord s) v d] := rfl

/-! ### issue -/

@[simp] theorem State.issue_err (w : Word) : (s.issue w).err = s.err := rfl
@[simp] theorem State.issue_eclass (w : Word) : (s.issue w).eclass = s.eclass := rfl
@[simp] theorem State.issue_ecause (w : Word) : (s.issue w).ecause = s.ecause := rfl
@[simp] theorem State.issue_tv (w : Word) : (s.issue w).tv = s.tv := rfl
@[simp] theorem State.issue_cv (w : Word) : (s.issue w).cv = s.cv := rfl
@[simp] theorem State.issue_pv (w : Word) : (s.issue w).pv = s.pv := rfl
@[simp] theorem State.issue_symlist (w : Word) : (s.issue w).symlist = s.symlist := rfl
@[simp] theorem State.issue_tree (w : Word) : (s.issue w).tree = s.tree := rfl
@[simp] theorem State.issue_ctab (w : Word) : (s.issue w).ctab = s.ctab := rfl
@[simp] theorem State.issue_bitseq (w : Word) : (s.issue w).bitseq = s.bitseq := rfl
@[simp] theorem State.issue_packbuf (w : Word) : (s.issue w).packbuf = s.packbuf := rfl
@[simp] theorem State.issue_pad (w : Word) : (s.issue w).pad = s.pad := rfl
@[simp] theorem State.issue_inbuf (w : Word) : (s.issue w).inbuf = s.inbuf := rfl
@[simp] theorem State.issue_outbuf (w : Word) : (s.issue w).outbuf = s.outbuf := rfl
@[simp] theorem State.issue_outpos (w : Word) : (s.issue w).outpos = s.outpos := rfl
@[simp] theorem State.issue_cfg (w : Word) : (s.issue w).cfg = s.cfg := rfl
@[simp] theorem State.issue_events (w : Word) : (s.issue w).events = .command w :: s.events := rfl
@[simp] theorem State.issue_responses (w : Word) : (s.issue w).responses = s.responses := rfl

end Sys2Proof.Machine
end

