-- ==== Sys2Proof/Laws/Ops.lean ====
section
/-! SUPPORT. What the shared operations answer: one lemma per operation and case, which later proofs cite instead of
unfolding the operation; STATUS and the response word as numbers. -/

namespace Sys2Proof.Machine

variable {s t : State} {c : Cause} {r : Result}

/-! ### Responses, errors and guards -/

theorem respond_eq (data : Data) (dvalid : Bool) (s : State) :
    respond data dvalid s = .next (s.answered dvalid data) := rfl

@[simp] theorem succeed_eq (s : State) : succeed s = .next (s.answered false 0) := rfl

@[simp] theorem drop_eq (s : State) : drop s = .next (s.answered false 0) := rfl

theorem failed_eq (s : State) (c : Cause) : s.failed c = (s.recordError c).answered false 0 := rfl

theorem raise_of_err (h : s.err = true) (c : Cause) : raise c s = .next (s.answered false 0) := by
  simp [raise, h]

theorem raise_of_clear (h : s.err = false) (c : Cause) : raise c s = .next (s.failed c) := by
  simp [raise, h, respond_eq, failed_eq]

theorem unlessErr_of_err (h : s.err = true) (r : Result) : unlessErr s r = .next (s.answered false 0) := by
  simp [unlessErr, h]

theorem unlessErr_of_clear (h : s.err = false) (r : Result) : unlessErr s r = r := by simp [unlessErr, h]

@[simp] theorem require_true (c : Cause) (s : State) (r : Result) : require true c s r = r := rfl

@[simp] theorem require_false (c : Cause) (s : State) (r : Result) : require false c s r = raise c s := rfl

/-- Everything a check can do. -/
theorem require_cases (ok : Bool) (c : Cause) (s : State) (r : Result) :
    (ok = true ∧ require ok c s r = r) ∨ (ok = false ∧ require ok c s r = raise c s) := by
  cases ok <;> simp

@[simp] theorem failed_err (s : State) (c : Cause) : (s.failed c).err = true := rfl

@[simp] theorem failed_eclass (s : State) (c : Cause) : (s.failed c).eclass = causeClass c := rfl

@[simp] theorem failed_ecause (s : State) (c : Cause) : (s.failed c).ecause = causeCode c := rfl

/-! ### The host's events -/

theorem nextEvent_nil (h : s.events = []) : nextEvent s = none := by simp [nextEvent, h]

theorem nextEvent_cons {e : HostEvent} {rest : List HostEvent} (h : s.events = e :: rest) :
    nextEvent s = some (e, { s with events := rest }) := by simp [nextEvent, h]

theorem step_of_command {w : Word} {rest : List HostEvent} (h : s.events = .command w :: rest) :
    step s = stepCommand w { s with events := rest } := by simp [step, nextEvent_cons h]

theorem step_of_reset {rest : List HostEvent} (h : s.events = .reset :: rest) :
    step s = .next ({ s with events := rest } : State).clearAll := by simp [step, nextEvent_cons h]

/-- Everything a step can do: one case per kind of event. -/
theorem step_cases (s : State) :
    (s.events = [] ∧ step s = .next s) ∨
    (∃ w rest i, s.events = .command w :: rest ∧ decode w = .ok i ∧ step s = exec i { s with events := rest }) ∨
    (∃ w rest r, s.events = .command w :: rest ∧ decode w = .error r ∧
      step s = raise (rejectCause r) { s with events := rest }) ∨
    (∃ rest, s.events = .reset :: rest ∧ step s = .next ({ s with events := rest } : State).clearAll) ∨
    (∃ w rest, s.events = .overlapped w :: rest ∧ step s = .refused .overlappedCommand) := by
  rcases h : s.events with _ | ⟨e, rest⟩
  · exact .inl ⟨rfl, by simp [step, nextEvent_nil h]⟩
  · refine .inr ?_
    cases e with
    | command w =>
      rcases hd : decode w with r | i
      · exact .inr (.inl ⟨w, rest, r, rfl, hd, by simp [step, nextEvent_cons h, stepCommand, hd, rejectCommand]⟩)
      · exact .inl ⟨w, rest, i, rfl, hd, by simp [step, nextEvent_cons h, stepCommand, hd]⟩
    | reset => exact .inr (.inr (.inl ⟨rest, rfl, by simp [step, nextEvent_cons h]⟩))
    | overlapped w => exact .inr (.inr (.inr ⟨w, rest, rfl, by simp [step, nextEvent_cons h]⟩))

end Sys2Proof.Machine
end

