-- ==== Sys2Proof/Laws/Operands.lean ====
section
/-! SUPPORT. The conversions of 00_scope.md R9: lengths, bounds, what they do on an appended string, and that they
invert each other. -/

namespace Sys2Proof.Machine

/-! ### Bit strings and numerals -/

theorem foldl_val (c : Bits) (acc : Nat) :
    c.foldl (fun a b => 2 * a + b.toNat) acc = acc * 2 ^ c.length + val c := by
  induction c generalizing acc with
  | nil => simp [val]
  | cons b c ih =>
    have h0 : val (b :: c) = b.toNat * 2 ^ c.length + val c := by
      have := ih (2 * 0 + b.toNat)
      simpa [val] using this
    rw [List.foldl_cons, ih, h0, List.length_cons, pow_succ]
    ring

@[simp] theorem val_nil : val [] = 0 := rfl

theorem val_cons (b : Bool) (c : Bits) : val (b :: c) = b.toNat * 2 ^ c.length + val c := by
  have := foldl_val c (2 * 0 + b.toNat)
  simpa [val] using this

theorem val_append (a b : Bits) : val (a ++ b) = val a * 2 ^ b.length + val b := by
  simp only [val, List.foldl_append]
  exact foldl_val b _

theorem val_lt (c : Bits) : val c < 2 ^ c.length := by
  induction c with
  | nil => simp
  | cons b c ih =>
    rw [val_cons, List.length_cons, pow_succ]
    cases b <;> simp <;> omega

@[simp] theorem bitsN_length (v n : Nat) : (bitsN v n).length = n := by
  induction n with
  | zero => rfl
  | succ n ih => simp [bitsN, ih]

theorem val_bitsN_mod (v n : Nat) : val (bitsN v n) = v % 2 ^ n := by
  induction n with
  | zero => simp [bitsN, Nat.mod_one]
  | succ n ih =>
    have hb : (v.testBit n).toNat = v / 2 ^ n % 2 := by
      rw [Nat.testBit_eq_decide_div_mod_eq]
      rcases Nat.mod_two_eq_zero_or_one (v / 2 ^ n) with h | h <;> simp [h]
    rw [bitsN, val_cons, ih, bitsN_length, hb, pow_succ, Nat.mod_mul]
    ring

theorem val_injective {a b : Bits} (hl : a.length = b.length) (hv : val a = val b) : a = b := by
  induction a generalizing b with
  | nil => simp at hl; simp [List.eq_nil_of_length_eq_zero hl.symm]
  | cons x a ih =>
    cases b with
    | nil => simp at hl
    | cons y b =>
      simp only [List.length_cons, Nat.succ.injEq] at hl
      rw [val_cons, val_cons, hl] at hv
      have ha := val_lt a
      have hb := val_lt b
      rw [hl] at ha
      have hxy : x = y := by cases x <;> cases y <;> simp at hv ⊢ <;> omega
      subst hxy
      rw [ih hl (by omega)]

/-! ### Bytes and big-endian numbers -/

theorem foldl_unBE (bs : List Byte) (acc : Nat) :
    bs.foldl (fun a b => 256 * a + b.toNat) acc = acc * 256 ^ bs.length + unBE bs := by
  induction bs generalizing acc with
  | nil => simp [unBE]
  | cons b bs ih =>
    have h0 : unBE (b :: bs) = b.toNat * 256 ^ bs.length + unBE bs := by
      have := ih (256 * 0 + b.toNat)
      simpa [unBE] using this
    rw [List.foldl_cons, ih, h0, List.length_cons, pow_succ]
    ring

@[simp] theorem unBE_nil : unBE [] = 0 := rfl

theorem unBE_cons (b : Byte) (bs : List Byte) : unBE (b :: bs) = b.toNat * 256 ^ bs.length + unBE bs := by
  have := foldl_unBE bs (256 * 0 + b.toNat)
  simpa [unBE] using this

theorem unBE_lt (bs : List Byte) : unBE bs < 256 ^ bs.length := by
  induction bs with
  | nil => simp
  | cons b bs ih =>
    rw [unBE_cons, List.length_cons, pow_succ]
    have := b.isLt
    nlinarith

@[simp] theorem beBytes_length (v m : Nat) : (beBytes v m).length = m := by
  induction m with
  | zero => rfl
  | succ m ih => simp [beBytes, ih]

theorem unBE_beBytes_mod (v m : Nat) : unBE (beBytes v m) = v % 256 ^ m := by
  induction m with
  | zero => simp [beBytes, Nat.mod_one]
  | succ m ih =>
    rw [beBytes, unBE_cons, ih, beBytes_length, BitVec.toNat_ofNat, pow_succ (256 : Nat), Nat.mod_mul]
    rw [Nat.mul_comm, Nat.add_comm]

theorem unBE_pair (a b : Byte) : unBE [a, b] = 256 * a.toNat + b.toNat := by simp [unBE]

/-- A code of at most `8m` bits fits `m` bytes. -/
theorem val_lt_bytes {c : Bits} {m : Nat} (h : c.length ≤ 8 * m) : val c < 256 ^ m := by
  have h2 : (256 : Nat) ^ m = 2 ^ (8 * m) := by rw [pow_mul]; norm_num
  rw [h2]
  exact lt_of_lt_of_le (val_lt c) (Nat.pow_le_pow_right (by norm_num) h)

theorem le_ceil8 (n : Nat) : n ≤ 8 * ceil8 n := by unfold ceil8; omega

/-! ### One byte and its eight bits -/

@[simp] theorem msbBits_length (x : Byte) : (msbBits x).length = 8 := rfl

theorem getElem?_msbBits (x : Byte) {j : Nat} (h : j < 8) : (msbBits x)[j]? = some (x.getLsbD (7 - j)) := by
  interval_cases j <;> rfl

theorem msbBits_byteOf {b : Bits} (h : b.length = 8) : msbBits (byteOf b) = b := by
  have hb : (byteOf b).toNat = val b := by
    have := val_lt b
    rw [h] at this
    simp only [byteOf, BitVec.toNat_ofNat]
    exact Nat.mod_eq_of_lt this
  apply val_injective (by rw [h]; rfl)
  rw [← hb]
  generalize byteOf b = x
  revert x
  decide

/-! ### Trees -/

@[simp] theorem child_node (b : Bool) (l r : CodeTree) : child b (.node l r) = if b then r else l := rfl

@[simp] theorem child_null (b : Bool) : child b .null = .null := rfl

@[simp] theorem child_leaf (b : Bool) (a : Byte) : child b (.leaf a) = .null := rfl

@[simp] theorem follow_nil (t : CodeTree) : follow t [] = t := rfl

@[simp] theorem follow_cons (t : CodeTree) (b : Bool) (bs : Bits) : follow t (b :: bs) = follow (child b t) bs := rfl

theorem follow_append (t : CodeTree) (a b : Bits) : follow t (a ++ b) = follow (follow t a) b := by
  induction a generalizing t with
  | nil => rfl
  | cons x a ih => simp [ih]

@[simp] theorem follow_null (c : Bits) : follow .null c = .null := by induction c <;> simp_all

theorem follow_leaf {a : Byte} {c : Bits} (h : c ≠ []) : follow (.leaf a) c = .null := by
  cases c with
  | nil => exact absurd rfl h
  | cons b c => simp

end Sys2Proof.Machine
end

