-- ==== Sys2Proof/Laws/BitPack.lean ====
section
/-! SUPPORT. The packer and the unpacker (41_bitpack.md R121 to R126): the bits of the packed bytes are the padded
sequence, and positions in an unpacked sequence. -/

namespace Sys2Proof.Machine

theorem padCount_range (n : Nat) : 1 ≤ padCount n ∧ padCount n ≤ 8 := by unfold padCount; omega

/-- Grouping a string of 8k bits gives k bytes that hold the same bits. -/
theorem groupBytes_spec (k : Nat) (B : Bits) (h : B.length = 8 * k) :
    (groupBytes B).length = k ∧ (groupBytes B).flatMap msbBits = B := by
  induction k generalizing B with
  | zero =>
    have : B = [] := List.eq_nil_of_length_eq_zero (by omega)
    subst this
    exact ⟨rfl, rfl⟩
  | succ k ih =>
    match B, h with
    | b7 :: b6 :: b5 :: b4 :: b3 :: b2 :: b1 :: b0 :: rest, h =>
      have hr : rest.length = 8 * k := by simp at h; omega
      have hb : msbBits (byteOf [b7, b6, b5, b4, b3, b2, b1, b0]) = [b7, b6, b5, b4, b3, b2, b1, b0] :=
        msbBits_byteOf rfl
      simp [groupBytes, (ih rest hr).1, (ih rest hr).2, hb]
    | [], h => simp at h
    | [_], h => simp at h; omega
    | [_, _], h => simp at h; omega
    | [_, _, _], h => simp at h; omega
    | [_, _, _, _], h => simp at h; omega
    | [_, _, _, _, _], h => simp at h; omega
    | [_, _, _, _, _, _], h => simp at h; omega
    | [_, _, _, _, _, _, _], h => simp at h; omega

/-- The padded sequence has a whole number of bytes (R121). -/
theorem padded_length (B : Bits) :
    (B ++ List.replicate (padCount B.length) false).length = 8 * (B.length / 8 + 1) := by
  simp [padCount]; omega

theorem packBytes_length (B : Bits) : (packBytes B).length = B.length / 8 + 1 :=
  (groupBytes_spec _ _ (padded_length B)).1

theorem flatMap_packBytes (B : Bits) :
    (packBytes B).flatMap msbBits = B ++ List.replicate (padCount B.length) false :=
  (groupBytes_spec _ _ (padded_length B)).2

theorem flatMap_msbBits_length (P : List Byte) : (P.flatMap msbBits).length = 8 * P.length := by
  induction P with
  | nil => rfl
  | cons x P ih => simp [ih]; omega

theorem unpackBits_length {P : List Byte} {p : Nat} : (unpackBits P p).length = 8 * P.length - p := by
  simp only [unpackBits, List.length_take, flatMap_msbBits_length]
  omega

/-- Bit j of byte i, MSB first, is bit 8i + j of the sequence (R53). -/
theorem getElem?_flatMap_msbBits (P : List Byte) {i j : Nat} {b : Byte} (hj : j < 8) (hi : P[i]? = some b) :
    (P.flatMap msbBits)[8 * i + j]? = some (b.getLsbD (7 - j)) := by
  induction P generalizing i with
  | nil => simp at hi
  | cons x P ih =>
    cases i with
    | zero =>
      simp only [List.getElem?_cons_zero, Option.some.injEq] at hi
      subst hi
      rw [List.flatMap_cons, List.getElem?_append_left (by simp; omega)]
      simpa using getElem?_msbBits x hj
    | succ i =>
      rw [List.flatMap_cons, List.getElem?_append_right (by simp; omega)]
      have : 8 * (i + 1) + j - (msbBits x).length = 8 * i + j := by simp; omega
      rw [this]
      exact ih (by simpa using hi)

end Sys2Proof.Machine
end

