-- ==== Sys2Proof/Laws/Tree.lean ====
section
/-! SUPPORT. The split, the build function and the extractor (40_tree.md R100 to R112). -/

namespace Sys2Proof.Machine

/-- The order SYMPUSH enforces on SYMLIST: frequencies do not increase (R22, R101). -/
def Sorted (L : List SymEntry) : Prop := L.Pairwise fun a b => b.freq.toNat ≤ a.freq.toNat

/-! ### The split -/

@[simp] theorem freqTotal_nil : freqTotal [] = 0 := rfl

@[simp] theorem freqTotal_cons (e : SymEntry) (L : List SymEntry) :
    freqTotal (e :: L) = e.freq.toNat + freqTotal L := by simp [freqTotal]

@[simp] theorem freqTotal_append (L M : List SymEntry) : freqTotal (L ++ M) = freqTotal L + freqTotal M := by
  simp [freqTotal]

/-- From a running sum that the whole list takes past half the total, `halfIndex` is the first index that does. -/
theorem halfIndex_first {total : Nat} {L : List SymEntry} (acc : Nat) (hne : L ≠ [])
    (h : total ≤ 2 * (acc + freqTotal L)) :
    halfIndex total acc L < L.length ∧ total ≤ 2 * (acc + freqTotal (L.take (halfIndex total acc L + 1))) ∧
      ∀ i < halfIndex total acc L, 2 * (acc + freqTotal (L.take (i + 1))) < total := by
  induction L generalizing acc with
  | nil => exact absurd rfl hne
  | cons e L ih =>
    unfold halfIndex
    split
    · next hc => exact ⟨by simp, by simpa using hc, by simp⟩
    · next hc =>
      have hL : L ≠ [] := by
        rintro rfl
        simp at h
        omega
      obtain ⟨h1, h2, h3⟩ := ih (acc + e.freq.toNat) hL (by simp at h; omega)
      refine ⟨by simpa using h1, by simp only [List.take_succ_cons, freqTotal_cons]; omega, ?_⟩
      intro i hi
      cases i with
      | zero => simp; omega
      | succ i =>
        have := h3 i (by omega)
        simp only [List.take_succ_cons, freqTotal_cons]
        omega

theorem splitIndex_lt {L : List SymEntry} (hne : L ≠ []) : splitIndex L < L.length :=
  (halfIndex_first 0 hne (by omega)).1

/-- R105: on a sorted list of two or more entries the right part is not empty. -/
theorem splitIndex_proper {L : List SymEntry} (hs : Sorted L) (hn : 2 ≤ L.length) :
    splitIndex L + 1 < L.length := by
  have hne : L ≠ [] := by rintro rfl; simp at hn
  obtain ⟨hlt, -, hmin⟩ := halfIndex_first (total := freqTotal L) 0 hne (by omega)
  change splitIndex L < _ at hlt
  change ∀ i < splitIndex L, _ at hmin
  by_contra hcon
  have hk : splitIndex L = L.length - 1 := by omega
  obtain ⟨init, last, rfl⟩ : ∃ init last, L = init ++ [last] := ⟨_, _, (List.dropLast_append_getLast hne).symm⟩
  simp only [List.length_append, List.length_cons, List.length_nil] at hn hk
  have h1 := hmin (init.length - 1) (by omega)
  rw [show init.length - 1 + 1 = init.length by omega, List.take_left' rfl] at h1
  obtain ⟨e, init', rfl⟩ : ∃ e init', init = e :: init' :=
    List.exists_cons_of_ne_nil (by rintro rfl; simp at hn)
  have h2 : last.freq.toNat ≤ e.freq.toNat := by
    have := (List.pairwise_append.1 hs).2.2 e (by simp) last (by simp)
    exact this
  simp at h1
  omega

theorem sorted_splitLeft {L : List SymEntry} (hs : Sorted L) : Sorted (splitLeft L) :=
  List.Pairwise.sublist (List.take_sublist _ _) hs

theorem sorted_splitRight {L : List SymEntry} (hs : Sorted L) : Sorted (splitRight L) :=
  List.Pairwise.sublist (List.drop_sublist _ _) hs

theorem splitLeft_append_splitRight (L : List SymEntry) : splitLeft L ++ splitRight L = L := List.take_append_drop _ _

/-- The lengths of the two parts of a sorted list of two or more entries. -/
theorem split_lengths {L : List SymEntry} (hs : Sorted L) (hn : 2 ≤ L.length) :
    1 ≤ (splitLeft L).length ∧ 1 ≤ (splitRight L).length ∧
      (splitLeft L).length + (splitRight L).length = L.length := by
  have := splitIndex_proper hs hn
  simp only [splitLeft, splitRight, List.length_take, List.length_drop]
  omega

/-! ### Build -/

theorem buildWithin_cons_cons (fuel : Nat) {L : List SymEntry} (hn : 2 ≤ L.length) :
    buildWithin (fuel + 1) L =
      match buildWithin fuel (splitLeft L), buildWithin fuel (splitRight L) with
      | some l, some r => some (.node l r)
      | _, _ => none := by
  match L, hn with
  | _ :: _ :: _, _ => rfl

theorem buildWithin_zero {L : List SymEntry} (hn : 2 ≤ L.length) : buildWithin 0 L = none := by
  match L, hn with
  | _ :: _ :: _, _ => rfl

@[simp] theorem buildWithin_nil (fuel : Nat) : buildWithin fuel [] = some .null := by unfold buildWithin; rfl

@[simp] theorem buildWithin_singleton (fuel : Nat) (e : SymEntry) : buildWithin fuel [e] = some (.leaf e.sym) := by
  unfold buildWithin; rfl

/-- What a recursion of two or more entries that ends has done. -/
theorem buildWithin_node {fuel : Nat} {L : List SymEntry} {t : CodeTree} (hn : 2 ≤ L.length)
    (h : buildWithin fuel L = some t) :
    ∃ f l r, fuel = f + 1 ∧ buildWithin f (splitLeft L) = some l ∧ buildWithin f (splitRight L) = some r ∧
      t = .node l r := by
  cases fuel with
  | zero => simp [buildWithin_zero hn] at h
  | succ f =>
    rw [buildWithin_cons_cons f hn] at h
    split at h
    · next l r hl hr => exact ⟨f, l, r, rfl, hl, hr, by simpa using h.symm⟩
    · simp at h

/-- A recursion that has ended gives the same tree under any larger bound. -/
theorem buildWithin_mono {f f' : Nat} {L : List SymEntry} {t : CodeTree} (h : buildWithin f L = some t)
    (hf : f ≤ f') : buildWithin f' L = some t := by
  induction f' generalizing f L t with
  | zero => obtain rfl : f = 0 := by omega
            exact h
  | succ f' ih =>
    match L, h with
    | [], h => simpa using h
    | [e], h => simpa using h
    | a :: b :: L, h =>
      obtain ⟨g, l, r, rfl, hl, hr, rfl⟩ := buildWithin_node (by simp) h
      rw [buildWithin_cons_cons _ (by simp), ih hl (by omega), ih hr (by omega)]

/-- R105, R107: on a sorted list the recursion ends, within the length of the list. -/
theorem buildWithin_total {f : Nat} {L : List SymEntry} (hs : Sorted L) (hf : L.length ≤ f) :
    ∃ t, buildWithin f L = some t := by
  induction f generalizing L with
  | zero =>
    obtain rfl : L = [] := List.eq_nil_of_length_eq_zero (by omega)
    exact ⟨_, buildWithin_nil _⟩
  | succ f ih =>
    match L, hs, hf with
    | [], _, _ => exact ⟨_, buildWithin_nil _⟩
    | [e], _, _ => exact ⟨_, buildWithin_singleton _ _⟩
    | a :: b :: L, hs, hf =>
      have hl := split_lengths hs (by simp)
      obtain ⟨l, h1⟩ := ih (sorted_splitLeft hs) (by omega)
      obtain ⟨r, h2⟩ := ih (sorted_splitRight hs) (by omega)
      exact ⟨.node l r, by rw [buildWithin_cons_cons f (by simp), h1, h2]⟩

/-- The shape of a built tree (R105 to R107). -/
theorem buildWithin_shape {f : Nat} {L : List SymEntry} {t : CodeTree} (hs : Sorted L) (hne : L ≠ [])
    (h : buildWithin f L = some t) :
    leaves t = L.map (fun e => e.sym) ∧ innerNodes t + 1 = L.length ∧ Full t ∧ depth t + 1 ≤ L.length := by
  induction f generalizing L t with
  | zero =>
    match L, hne, h with
    | [e], _, h =>
      obtain rfl : t = .leaf e.sym := by simpa using h.symm
      simp [leaves, innerNodes, Full, depth]
    | a :: b :: L, _, h => simp [buildWithin_zero] at h
  | succ f ih =>
    match L, hne, hs, h with
    | [e], _, _, h =>
      obtain rfl : t = .leaf e.sym := by simpa using h.symm
      simp [leaves, innerNodes, Full, depth]
    | a :: b :: L, _, hs, h =>
      obtain ⟨g, l, r, hg, hl, hr, rfl⟩ := buildWithin_node (by simp) h
      obtain rfl : g = f := by omega
      have hlen := split_lengths hs (by simp)
      have hl' := ih (sorted_splitLeft hs) (List.ne_nil_of_length_pos (by omega)) hl
      have hr' := ih (sorted_splitRight hs) (List.ne_nil_of_length_pos (by omega)) hr
      refine ⟨?_, ?_, ⟨hl'.2.2.1, hr'.2.2.1⟩, ?_⟩
      · rw [leaves, hl'.1, hr'.1, ← List.map_append, splitLeft_append_splitRight]
      · simp only [innerNodes]; omega
      · simp only [depth]; omega

/-- The build function on a sorted list (R102, R105). -/
theorem build_total {L : List SymEntry} (hs : Sorted L) : ∃ t, build L = some t := buildWithin_total hs le_rfl

/-- A list whose left part is the whole list has no tree. -/
theorem buildWithin_of_improper_split {L : List SymEntry} (hn : 2 ≤ L.length) (h : splitLeft L = L) (f : Nat) :
    buildWithin f L = none := by
  induction f with
  | zero => exact buildWithin_zero hn
  | succ f ih => rw [buildWithin_cons_cons f hn, h, ih]

/-- A recursion that ends at any depth ends within the length of the list. -/
theorem build_of_buildWithin {f : Nat} {L : List SymEntry} {t : CodeTree} (h : buildWithin f L = some t) :
    build L = some t := by
  induction f generalizing L t with
  | zero => exact buildWithin_mono h (by omega)
  | succ f ih =>
    match L, h with
    | [], h => simpa [build] using h
    | [e], h => simpa [build] using h
    | a :: b :: L, h =>
      have hn : 2 ≤ (a :: b :: L).length := by simp
      obtain ⟨g, l, r, hg, hl, hr, rfl⟩ := buildWithin_node hn h
      obtain rfl : f = g := by omega
      have happ := splitLeft_append_splitRight (a :: b :: L)
      by_cases hs : splitRight (a :: b :: L) = []
      · rw [hs, List.append_nil] at happ
        rw [buildWithin_of_improper_split hn happ] at h
        cases h
      · have hlen := congrArg List.length happ
        have hlr := List.length_pos_of_ne_nil hs
        have hll : 0 < (splitLeft (a :: b :: L)).length := by simp [splitLeft]
        simp only [List.length_append] at hlen
        have hm : (a :: b :: L).length = (L.length + 1) + 1 := by simp
        rw [hm] at hlen
        unfold build at ih ⊢
        rw [hm, buildWithin_cons_cons _ hn, buildWithin_mono (ih hl) (by omega), buildWithin_mono (ih hr) (by omega)]

/-! ### Extract -/

theorem walk_syms (t : CodeTree) (p : Bits) : (walk t p).map (fun e => e.sym) = leaves t := by
  induction t generalizing p with
  | null => rfl
  | leaf a => rfl
  | node l r ihl ihr => simp [walk, leaves, ihl, ihr]

/-- Every entry of a walk is a leaf with its path. -/
theorem walk_mem {t : CodeTree} {p : Bits} {e : CodeEntry} (h : e ∈ walk t p) :
    ∃ q, e.code = p ++ q ∧ follow t q = .leaf e.sym ∧ q.length ≤ depth t := by
  induction t generalizing p with
  | null => simp [walk] at h
  | leaf a =>
    obtain rfl : e = ⟨a, p⟩ := by simpa [walk] using h
    exact ⟨[], by simp, rfl, by simp⟩
  | node l r ihl ihr =>
    simp only [walk, List.mem_append] at h
    rcases h with h | h
    · obtain ⟨q, h1, h2, h3⟩ := ihl h
      exact ⟨false :: q, by simp [h1], by simpa using h2, by simp [depth]; omega⟩
    · obtain ⟨q, h1, h2, h3⟩ := ihr h
      exact ⟨true :: q, by simp [h1], by simpa using h2, by simp [depth]; omega⟩

/-- Every leaf is an entry of a walk, with its path. -/
theorem mem_walk_of_follow {t : CodeTree} {p q : Bits} {a : Byte} (h : follow t q = .leaf a) :
    ⟨a, p ++ q⟩ ∈ walk t p := by
  induction t generalizing p q with
  | null => simp at h
  | leaf b =>
    cases q with
    | nil => simp at h; subst h; simp [walk]
    | cons x q => simp at h
  | node l r ihl ihr =>
    cases q with
    | nil => simp at h
    | cons x q =>
      cases x with
      | false =>
        have := ihl (p := p ++ [false]) (q := q) (by simpa using h)
        simp [walk] at this ⊢; exact .inl this
      | true =>
        have := ihr (p := p ++ [true]) (q := q) (by simpa using h)
        simp [walk] at this ⊢; exact .inr this

theorem walk_prefixFree (t : CodeTree) (p : Bits) : (walk t p).Pairwise PrefixFree := by
  induction t generalizing p with
  | null => simp [walk]
  | leaf a => simp [walk]
  | node l r ihl ihr =>
    rw [walk, List.pairwise_append]
    refine ⟨ihl _, ihr _, fun a ha b hb => ?_⟩
    obtain ⟨q, hq, -⟩ := walk_mem ha
    obtain ⟨q', hq', -⟩ := walk_mem hb
    simp [PrefixFree, hq, hq', List.append_assoc, List.prefix_append_right_inj]

/-- At most 256 distinct bytes exist (R7). -/
theorem nodup_length_le {l : List Byte} (h : l.Nodup) : l.length ≤ 256 := by
  have h1 : (l.map BitVec.toNat).Nodup := h.map fun a b hab => BitVec.eq_of_toNat_eq hab
  have h2 : l.map BitVec.toNat ⊆ List.range 256 := by
    intro x hx
    obtain ⟨b, -, rfl⟩ := List.mem_map.1 hx
    exact List.mem_range.2 b.isLt
  simpa using (List.Nodup.subperm h1 h2).length_le

/-- A node's table is a walk with the empty path. -/
theorem extract_node (l r : CodeTree) : extract (.node l r) = walk (.node l r) [] := rfl

theorem extract_syms (t : CodeTree) : (extract t).map (fun e => e.sym) = leaves t := by
  cases t with
  | null => rfl
  | leaf a => rfl
  | node l r => rw [extract_node, walk_syms]

end Sys2Proof.Machine
end

