-- ==== Sys2Proof/Laws/Container.lean ====
section
/-! SUPPORT. Path insertion, decode trees, and writing and reading a container (42_container.md R136 to R147). -/

namespace Sys2Proof.Machine

/-! ### Path insertion -/

/-- Every internal node has a leaf below it: "every internal node of a decode tree lies on the path of some entry's
code" (R112). -/
def Live : CodeTree → Prop
  | .null => True
  | .leaf _ => True
  | .node l r => Live l ∧ Live r ∧ (l ≠ .null ∨ r ≠ .null)

/-- Insertion on a first bit goes into the child of that bit (R143). -/
theorem insertPath_cons (l r : CodeTree) (b : Bool) (c : Bits) (a : Byte) :
    insertPath (.node l r) (b :: c) a =
      (insertPath (child b (.node l r)) c a).map
        (fun t => if b then CodeTree.node l t else CodeTree.node t r) := by
  cases b
  · simp only [insertPath, child_node]
    cases h : insertPath l c a <;> simp [h]
  · simp only [insertPath, child_node]
    cases h : insertPath r c a <;> simp [h]

/-- "creating internal nodes on demand" (R143): below a null child an insertion is one into an empty Node. -/
theorem insertPath_null_cons (b : Bool) (c : Bits) (a : Byte) :
    insertPath .null (b :: c) a = insertPath (.node .null .null) (b :: c) a := by
  cases b <;> simp only [insertPath] <;> cases insertPath .null c a <;> simp

theorem insertPath_null_isSome (c : Bits) (a : Byte) : ∃ t, insertPath .null c a = some t := by
  induction c with
  | nil => exact ⟨_, rfl⟩
  | cons b c ih =>
    obtain ⟨t, ht⟩ := ih
    rw [insertPath_null_cons, insertPath_cons]
    cases b <;> simp [ht]

@[simp] theorem insertPath_leaf (x : Byte) (c : Bits) (a : Byte) : insertPath (.leaf x) c a = none := by
  cases c <;> rfl

@[simp] theorem insertPath_node_nil (l r : CodeTree) (a : Byte) : insertPath (.node l r) [] a = none := rfl

/-- An insertion adds exactly its own leaf. -/
theorem insertPath_walk_perm {t t' : CodeTree} {c : Bits} {a : Byte} (h : insertPath t c a = some t') (p : Bits) :
    (walk t' p).Perm (⟨a, p ++ c⟩ :: walk t p) := by
  induction c generalizing t t' p with
  | nil =>
    cases t with
    | null =>
      obtain rfl : t' = .leaf a := by simpa [insertPath] using h.symm
      simp [walk]
    | leaf x => simp at h
    | node l r => simp at h
  | cons b c ih =>
    have key : ∀ l r, insertPath (.node l r) (b :: c) a = some t' →
        (walk t' p).Perm (⟨a, p ++ b :: c⟩ :: walk (.node l r) p) := by
      intro l r h
      rw [insertPath_cons, Option.map_eq_some_iff] at h
      obtain ⟨x, hx, rfl⟩ := h
      cases b with
      | false =>
        have := (ih hx (p ++ [false])).append_right (walk r (p ++ [true]))
        simpa [walk] using this
      | true =>
        have := (ih hx (p ++ [true])).append_left (walk l (p ++ [false]))
        simpa [walk] using this.trans (List.perm_middle)
    cases t with
    | null =>
      rw [insertPath_null_cons] at h
      simpa [walk] using key _ _ h
    | leaf x => simp at h
    | node l r => exact key l r h

theorem insertPath_ne_null {t t' : CodeTree} {c : Bits} {a : Byte} (h : insertPath t c a = some t') : t' ≠ .null := by
  rintro rfl
  have := (insertPath_walk_perm h []).length_eq
  simp [walk] at this

theorem insertPath_live {t t' : CodeTree} {c : Bits} {a : Byte} (ht : Live t) (h : insertPath t c a = some t') :
    Live t' := by
  induction c generalizing t t' with
  | nil =>
    cases t with
    | null =>
      obtain rfl : t' = .leaf a := by simpa [insertPath] using h.symm
      trivial
    | leaf x => simp at h
    | node l r => simp at h
  | cons b c ih =>
    have key : ∀ l r, Live l → Live r → insertPath (.node l r) (b :: c) a = some t' → Live t' := by
      intro l r hl hr h
      rw [insertPath_cons, Option.map_eq_some_iff] at h
      obtain ⟨x, hx, rfl⟩ := h
      have hne := insertPath_ne_null hx
      cases b with
      | false => exact ⟨ih (by simpa using hl) hx, hr, .inl hne⟩
      | true => exact ⟨hl, ih (by simpa using hr) hx, .inr hne⟩
    cases t with
    | null =>
      rw [insertPath_null_cons] at h
      exact key .null .null trivial trivial h
    | leaf x => simp at h
    | node l r => exact key l r ht.1 ht.2.1 h

/-- A non-empty code inserted below the root of a Node whose children are live gives a live Node. -/
theorem insertPath_root {l r t' : CodeTree} {c : Bits} {a : Byte} (hl : Live l) (hr : Live r) (hc : c ≠ [])
    (h : insertPath (.node l r) c a = some t') : ∃ l' r', t' = .node l' r' ∧ Live t' := by
  cases c with
  | nil => exact absurd rfl hc
  | cons b c =>
    rw [insertPath_cons, Option.map_eq_some_iff] at h
    obtain ⟨x, hx, rfl⟩ := h
    have hne := insertPath_ne_null hx
    cases b with
    | false => exact ⟨_, _, rfl, insertPath_live (by simpa using hl) hx, hr, .inl hne⟩
    | true => exact ⟨_, _, rfl, hl, insertPath_live (by simpa using hr) hx, .inr hne⟩

theorem exists_walk_of_live {t : CodeTree} (ht : Live t) (hn : t ≠ .null) (p : Bits) : ∃ e, e ∈ walk t p := by
  induction t generalizing p with
  | null => exact absurd rfl hn
  | leaf a => exact ⟨_, List.mem_singleton.2 rfl⟩
  | node l r ihl ihr =>
    rcases ht.2.2 with h | h
    · obtain ⟨e, he⟩ := ihl ht.1 h (p ++ [false])
      exact ⟨e, List.mem_append_left _ he⟩
    · obtain ⟨e, he⟩ := ihr ht.2.1 h (p ++ [true])
      exact ⟨e, List.mem_append_right _ he⟩

/-- In a live tree an insertion conflicts exactly with an entry that is a prefix or an extension of the code. -/
theorem insertPath_none_iff {t : CodeTree} (ht : Live t) (c p : Bits) (a : Byte) :
    insertPath t c a = none ↔ ∃ e ∈ walk t p, e.code <+: p ++ c ∨ p ++ c <+: e.code := by
  induction t generalizing c p with
  | null =>
    obtain ⟨t', h⟩ := insertPath_null_isSome c a
    simp [h, walk]
  | leaf x => simp [walk]
  | node l r ihl ihr =>
    cases c with
    | nil =>
      obtain ⟨e, he⟩ := exists_walk_of_live ht (by simp) p
      obtain ⟨q, hq, -⟩ := walk_mem he
      simp only [insertPath_node_nil, true_iff]
      exact ⟨e, he, .inr ⟨q, by simp [hq]⟩⟩
    | cons b c =>
      rw [insertPath_cons, Option.map_eq_none_iff]
      have cross : ∀ (x : CodeTree) (y : Bool), y ≠ b → ∀ e ∈ walk x (p ++ [y]),
          ¬(e.code <+: p ++ b :: c ∨ p ++ b :: c <+: e.code) := by
        intro x y hy e he
        obtain ⟨q, hq, -⟩ := walk_mem he
        simp [hq, List.append_assoc, List.prefix_append_right_inj, hy, Ne.symm hy]
      cases b with
      | false =>
        rw [child_node, if_neg (by simp), ihl ht.1 c (p ++ [false])]
        constructor
        · rintro ⟨e, he, h⟩
          exact ⟨e, List.mem_append_left _ he, by simpa using h⟩
        · rintro ⟨e, he, h⟩
          rcases List.mem_append.1 he with he | he
          · exact ⟨e, he, by simpa using h⟩
          · exact absurd h (cross r true (by simp) e he)
      | true =>
        rw [child_node, if_pos rfl, ihr ht.2.1 c (p ++ [true])]
        constructor
        · rintro ⟨e, he, h⟩
          exact ⟨e, List.mem_append_right _ he, by simpa using h⟩
        · rintro ⟨e, he, h⟩
          rcases List.mem_append.1 he with he | he
          · exact absurd h (cross l false (by simp) e he)
          · exact ⟨e, he, by simpa using h⟩

theorem depth_insertPath {t t' : CodeTree} {c : Bits} {a : Byte} (h : insertPath t c a = some t') :
    depth t' ≤ max (depth t) c.length := by
  induction c generalizing t t' with
  | nil =>
    cases t with
    | null =>
      obtain rfl : t' = .leaf a := by simpa [insertPath] using h.symm
      simp [depth]
    | leaf x => simp at h
    | node l r => simp at h
  | cons b c ih =>
    have key : ∀ l r, insertPath (.node l r) (b :: c) a = some t' →
        depth t' ≤ max (max (depth l) (depth r)) c.length + 1 := by
      intro l r h
      rw [insertPath_cons, Option.map_eq_some_iff] at h
      obtain ⟨x, hx, rfl⟩ := h
      have := ih hx
      cases b <;> simp [depth] at this ⊢ <;> omega
    cases t with
    | null =>
      rw [insertPath_null_cons] at h
      have := key _ _ h
      simp [depth] at this ⊢; omega
    | leaf x => simp at h
    | node l r =>
      have := key _ _ h
      simp [depth] at this ⊢; omega

/-! ### Decode trees -/

theorem insertAll_append (t : CodeTree) (a b : List CodeEntry) :
    insertAll t (a ++ b) = (insertAll t a).bind fun t' => insertAll t' b := by
  induction a generalizing t with
  | nil => rfl
  | cons e a ih =>
    simp only [List.cons_append, insertAll]
    cases insertPath t e.code e.sym <;> simp [ih]

theorem insertAll_walk_perm {t t' : CodeTree} {ct : List CodeEntry} (h : insertAll t ct = some t') :
    (walk t' []).Perm (ct ++ walk t []) := by
  induction ct generalizing t with
  | nil => obtain rfl : t = t' := by simpa [insertAll] using h
           simp
  | cons e ct ih =>
    simp only [insertAll] at h
    split at h
    · simp at h
    · next x hx =>
      have h1 := insertPath_walk_perm hx []
      exact (ih h).trans (((List.Perm.refl ct).append h1).trans (by simp))

theorem insertAll_root {l r t' : CodeTree} {ct : List CodeEntry} (hl : Live l) (hr : Live r)
    (hc : ∀ e ∈ ct, e.code ≠ []) (h : insertAll (.node l r) ct = some t') :
    ∃ l' r', t' = .node l' r' ∧ Live l' ∧ Live r' ∧ (ct ≠ [] → Live t') := by
  induction ct generalizing l r with
  | nil =>
    obtain rfl : CodeTree.node l r = t' := by simpa [insertAll] using h
    exact ⟨l, r, rfl, hl, hr, fun h => absurd rfl h⟩
  | cons e ct ih =>
    simp only [insertAll] at h
    split at h
    · simp at h
    · next x hx =>
      obtain ⟨l1, r1, rfl, hlive⟩ := insertPath_root hl hr (hc e (by simp)) hx
      obtain ⟨l2, r2, rfl, h3, h4, h5⟩ := ih hlive.1 hlive.2.1 (fun e he => hc e (by simp [he])) h
      refine ⟨l2, r2, rfl, h3, h4, fun _ => ?_⟩
      cases ct with
      | nil =>
        have h := Option.some.inj h
        rw [← h]; exact hlive
      | cons e' ct => exact h5 (by simp)

theorem decodeTree_eq_insertAll {ct : List CodeEntry} (h : ct ≠ []) :
    decodeTree ct = insertAll (.node .null .null) ct := by
  cases ct with
  | nil => exact absurd rfl h
  | cons e ct => rfl

/-- The decode tree of a non-empty table: a live Node whose leaves are the table's entries. -/
theorem decodeTree_spec {ct : List CodeEntry} {t : CodeTree} (hne : ct ≠ []) (hc : ∀ e ∈ ct, e.code ≠ [])
    (h : decodeTree ct = some t) : (∃ l r, t = .node l r) ∧ Live t ∧ (walk t []).Perm ct := by
  rw [decodeTree_eq_insertAll hne] at h
  obtain ⟨l, r, rfl, -, -, hlive⟩ := insertAll_root (l := .null) (r := .null) trivial trivial hc h
  exact ⟨⟨l, r, rfl⟩, hlive hne, by simpa [walk] using insertAll_walk_perm h⟩

theorem decodeTree_snoc {ct : List CodeEntry} {t : CodeTree} (hne : ct ≠ []) (h : decodeTree ct = some t)
    (e : CodeEntry) : decodeTree (ct ++ [e]) = insertPath t e.code e.sym := by
  rw [decodeTree_eq_insertAll hne] at h
  rw [decodeTree_eq_insertAll (by simp), insertAll_append, h]
  simp only [Option.bind_some, insertAll]
  cases insertPath t e.code e.sym <;> rfl

/-- R143: DecodeTree is total on every prefix-free table with non-empty codes. -/
theorem decodeTree_total {ct : List CodeEntry} (hc : ∀ e ∈ ct, e.code ≠ []) (hp : ct.Pairwise PrefixFree) :
    ∃ t, decodeTree ct = some t := by
  induction ct using List.reverseRecOn with
  | nil => exact ⟨.null, rfl⟩
  | append_singleton ct e ih =>
    rw [List.pairwise_append] at hp
    have hc' : ∀ x ∈ ct, x.code ≠ [] := fun x hx => hc x (by simp [hx])
    obtain ⟨t, ht⟩ := ih hc' hp.1
    have hce : e.code ≠ [] := hc e (by simp)
    by_cases hne : ct = []
    · subst hne
      obtain ⟨b, c, hbc⟩ := List.exists_cons_of_ne_nil hce
      obtain ⟨t', h⟩ := insertPath_null_isSome (b :: c) e.sym
      rw [insertPath_null_cons] at h
      exact ⟨t', by simp [decodeTree, insertAll, hbc, h]⟩
    · rw [decodeTree_snoc hne ht]
      obtain ⟨-, hlive, hperm⟩ := decodeTree_spec hne hc' ht
      cases hi : insertPath t e.code e.sym with
      | some t' => exact ⟨t', rfl⟩
      | none =>
        obtain ⟨x, hx, h⟩ := (insertPath_none_iff hlive e.code [] e.sym).1 hi
        have := hp.2.2 x (hperm.mem_iff.1 hx) e (by simp)
        simp only [List.nil_append] at h
        rcases h with h | h
        · exact absurd h this.1
        · exact absurd h this.2

/-- In the decode tree of a table every entry's code leads to its symbol. -/
theorem follow_decodeTree {ct : List CodeEntry} {t : CodeTree} (hc : ∀ e ∈ ct, e.code ≠ [])
    (h : decodeTree ct = some t) {e : CodeEntry} (he : e ∈ ct) : follow t e.code = .leaf e.sym := by
  obtain ⟨-, -, hperm⟩ := decodeTree_spec (by rintro rfl; simp at he) hc h
  obtain ⟨q, hq, hf, -⟩ := walk_mem (hperm.mem_iff.2 he)
  rw [hq]; simpa using hf

/-- A live tree is determined by its leaves and their paths. -/
theorem live_ext {t t' : CodeTree} (ht : Live t) (ht' : Live t')
    (h : ∀ q a, follow t q = .leaf a ↔ follow t' q = .leaf a) : t = t' := by
  have reach : ∀ x : CodeTree, Live x → x ≠ .null → ∃ q a, follow x q = .leaf a := by
    intro x hx hn
    obtain ⟨e, he⟩ := exists_walk_of_live hx hn []
    obtain ⟨q, -, hq, -⟩ := walk_mem he
    exact ⟨q, e.sym, hq⟩
  induction t generalizing t' with
  | null =>
    by_contra hn
    obtain ⟨q, a, hq⟩ := reach t' ht' (Ne.symm hn)
    have := (h q a).2 hq
    simp at this
  | leaf x =>
    have := (h [] x).1 rfl
    simpa using this.symm
  | node l r ihl ihr =>
    cases t' with
    | null =>
      obtain ⟨q, a, hq⟩ := reach _ ht (by simp)
      have := (h q a).1 hq
      simp at this
    | leaf x =>
      have := (h [] x).2 rfl
      simp at this
    | node l' r' =>
      rw [ihl ht.1 ht'.1 fun q a => by simpa using h (false :: q) a,
        ihr ht.2.1 ht'.2.1 fun q a => by simpa using h (true :: q) a]

theorem live_of_full {t : CodeTree} (h : Full t) : Live t := by
  induction t with
  | null => exact absurd h id
  | leaf a => trivial
  | node l r ihl ihr =>
    refine ⟨ihl h.1, ihr h.2, .inl ?_⟩
    rintro rfl
    exact h.1

/-! ### Writing and reading -/

theorem bitsN_val (c : Bits) : bitsN (val c) c.length = c := by
  apply val_injective (by simp)
  rw [val_bitsN_mod, Nat.mod_eq_of_lt (val_lt c)]

@[simp] theorem entryBytes_length (e : CodeEntry) : (entryBytes e).length = 2 + ceil8 e.code.length := by
  simp only [entryBytes, List.length_cons, beBytes_length]
  omega

theorem flatMap_entryBytes_length (ct : List CodeEntry) : (ct.flatMap entryBytes).length = tableLength ct := by
  induction ct with
  | nil => rfl
  | cons e ct ih => simp [tableLength] at ih ⊢

/-- Reading back the bytes of one entry (R142). -/
theorem parseCode_entry {e : CodeEntry} {ct : List CodeEntry} {t t' : CodeTree} (rest : List Byte)
    (hl : 1 ≤ e.code.length ∧ e.code.length ≤ 255) (hd : ∀ x ∈ ct, x.sym ≠ e.sym)
    (hi : insertPath t e.code e.sym = some t') :
    parseCode e.sym (BitVec.ofNat 8 e.code.length)
      (beBytes (val e.code) (ceil8 e.code.length) ++ rest) ct t = .ok (ct ++ [e], t', rest) := by
  have hlen : (BitVec.ofNat 8 e.code.length).toNat = e.code.length := by
    rw [BitVec.toNat_ofNat]; exact Nat.mod_eq_of_lt (by omega)
  have hv : unBE (beBytes (val e.code) (ceil8 e.code.length)) = val e.code := by
    rw [unBE_beBytes_mod, Nat.mod_eq_of_lt (val_lt_bytes (le_ceil8 _))]
  have hany : ¬ (ct.any fun x => x.sym == e.sym) = true := by simpa using hd
  have htake : (beBytes (val e.code) (ceil8 e.code.length) ++ rest).take (ceil8 e.code.length) =
      beBytes (val e.code) (ceil8 e.code.length) := List.take_left' (by simp)
  have hdrop : (beBytes (val e.code) (ceil8 e.code.length) ++ rest).drop (ceil8 e.code.length) = rest :=
    List.drop_left' (by simp)
  unfold parseCode
  rw [hlen, htake, hdrop, hv, bitsN_val, hi, if_neg (by omega), if_neg (by simp),
    if_neg (Nat.not_le.2 (val_lt e.code)), if_neg hany]

/-- A code cut short (R142). -/
theorem parseCode_truncated {s len : Byte} {b : List Byte} (ct : List CodeEntry) (t : CodeTree)
    (h0 : len.toNat ≠ 0) (h : b.length < ceil8 len.toNat) : parseCode s len b ct t = .error .truncCode := by
  unfold parseCode
  rw [if_neg h0, if_pos h]

/-- Reading back the bytes of entries, after `pre` have been read (R142). -/
theorem parseEntries_entries {es pre : List CodeEntry} {t t' : CodeTree} (P : List Byte)
    (hl : ∀ e ∈ es, 1 ≤ e.code.length ∧ e.code.length ≤ 255)
    (hd : ((pre ++ es).map fun e => e.sym).Nodup) (hi : insertAll t es = some t') :
    parseEntries es.length (es.flatMap entryBytes ++ P) pre t = .ok (pre ++ es, t', P) := by
  induction es generalizing pre t with
  | nil =>
    obtain rfl : t = t' := by simpa [insertAll] using hi
    simp [parseEntries]
  | cons e es ih =>
    simp only [insertAll] at hi
    split at hi
    · simp at hi
    · next x hx =>
      have hne : ∀ y ∈ pre, y.sym ≠ e.sym := by
        intro y hy heq
        rw [List.map_append, List.nodup_append] at hd
        exact hd.2.2 y.sym (List.mem_map_of_mem hy) e.sym (by simp) heq
      simp only [List.length_cons, List.flatMap_cons, entryBytes, List.cons_append, List.append_assoc, parseEntries]
      rw [parseCode_entry _ (hl e (by simp)) hne hx]
      have := ih (pre := pre ++ [e]) (t := x) (fun y hy => hl y (by simp [hy])) (by simpa using hd) hi
      simpa using this

/-- Entries cut short anywhere (R142). -/
theorem parseEntries_truncated {es pre : List CodeEntry} {t t' : CodeTree} {n : Nat}
    (hl : ∀ e ∈ es, 1 ≤ e.code.length ∧ e.code.length ≤ 255)
    (hd : ((pre ++ es).map fun e => e.sym).Nodup) (hi : insertAll t es = some t') (hn : n < tableLength es) :
    parseEntries es.length ((es.flatMap entryBytes).take n) pre t = .error .truncEntry ∨
      parseEntries es.length ((es.flatMap entryBytes).take n) pre t = .error .truncCode := by
  induction es generalizing pre t n with
  | nil => simp [tableLength] at hn
  | cons e es ih =>
    simp only [insertAll] at hi
    split at hi
    · simp at hi
    · next x hx =>
      have hne : ∀ y ∈ pre, y.sym ≠ e.sym := by
        intro y hy heq
        rw [List.map_append, List.nodup_append] at hd
        exact hd.2.2 y.sym (List.mem_map_of_mem hy) e.sym (by simp) heq
      have hlen : (BitVec.ofNat 8 e.code.length).toNat = e.code.length := by
        have := hl e (by simp)
        rw [BitVec.toNat_ofNat]; exact Nat.mod_eq_of_lt (by omega)
      have hpos := (hl e (by simp)).1
      match n, hn with
      | 0, _ => exact .inl (by simp [parseEntries])
      | 1, _ => exact .inl (by simp [parseEntries, entryBytes])
      | n + 2, hn =>
        simp only [List.length_cons, List.flatMap_cons, entryBytes, List.cons_append, List.take_succ_cons, parseEntries]
        by_cases hm : n < ceil8 e.code.length
        · rw [parseCode_truncated _ _ (by omega) (by rw [hlen, List.length_take]; omega)]
          exact .inr rfl
        · rw [List.take_append, List.take_of_length_le (by simp; omega), beBytes_length,
            parseCode_entry _ (hl e (by simp)) hne hx]
          have := ih (pre := pre ++ [e]) (t := x) (n := n - ceil8 e.code.length) (fun y hy => hl y (by simp [hy]))
            (by simpa using hd) hi (by simp [tableLength] at hn ⊢; omega)
          simpa using this

theorem parseCode_ok {s len : Byte} {b b' : List Byte} {ct ct' : List CodeEntry} {t t' : CodeTree}
    (h : parseCode s len b ct t = .ok (ct', t', b')) :
    ∃ c : Bits, c.length = len.toNat ∧ len.toNat ≠ 0 ∧ (∀ e ∈ ct, e.sym ≠ s) ∧ insertPath t c s = some t' ∧
      ct' = ct ++ [⟨s, c⟩] ∧ b'.length + ceil8 c.length = b.length := by
  unfold parseCode at h
  by_cases h1 : len.toNat = 0
  · simp [h1] at h
  by_cases h2 : b.length < ceil8 len.toNat
  · simp [h1, h2] at h
  by_cases h3 : 2 ^ len.toNat ≤ unBE (b.take (ceil8 len.toNat))
  · simp [h1, h2, h3] at h
  by_cases h4 : ct.any (fun e => e.sym == s) = true
  · simp only [h1, h2, h3, h4, if_true, if_false] at h
    simp at h
  rw [if_neg h1, if_neg h2, if_neg h3, if_neg h4] at h
  split at h
  · simp at h
  · next x hx =>
    simp only [Except.ok.injEq, Prod.mk.injEq] at h
    obtain ⟨rfl, rfl, rfl⟩ := h
    refine ⟨_, bitsN_length _ _, h1, by simpa using h4, hx, rfl, ?_⟩
    simp only [bitsN_length, List.length_drop]
    omega

/-- What a parse of entries that succeeds has built (R142). -/
theorem parseEntries_ok {n : Nat} {b b' : List Byte} {ct ct' : List CodeEntry} {t t' : CodeTree}
    (h : parseEntries n b ct t = .ok (ct', t', b')) :
    ∃ es : List CodeEntry, ct' = ct ++ es ∧ es.length = n ∧ insertAll t es = some t' ∧
      (∀ e ∈ es, 1 ≤ e.code.length ∧ e.code.length ≤ 255) ∧
      ((ct.map fun e => e.sym).Nodup → (ct'.map fun e => e.sym).Nodup) ∧ b'.length ≤ b.length := by
  induction n generalizing b ct t with
  | zero =>
    simp only [parseEntries, Except.ok.injEq, Prod.mk.injEq] at h
    obtain ⟨rfl, rfl, rfl⟩ := h
    exact ⟨[], by simp, rfl, rfl, by simp, id, le_rfl⟩
  | succ n ih =>
    unfold parseEntries at h
    split at h
    · next s len rest =>
      split at h
      · simp at h
      · next ct1 t1 b1 hp =>
        obtain ⟨c, hlen, hnz, hsym, hins, rfl, hb⟩ := parseCode_ok hp
        obtain ⟨es, rfl, hn, hall, hls, hnd, hb'⟩ := ih h
        refine ⟨⟨s, c⟩ :: es, by simp, by simp [hn], by simp [insertAll, hins, hall], ?_, ?_, by simp; omega⟩
        · intro e he
          rcases List.mem_cons.1 he with rfl | he
          · have := len.isLt
            simp only
            omega
          · exact hls e he
        · intro hct
          refine hnd ?_
          rw [List.map_append, List.nodup_append]
          refine ⟨hct, by simp, ?_⟩
          rintro x hx y hy rfl
          obtain ⟨e, he, rfl⟩ := List.mem_map.1 hx
          simp at hy
          exact hsym e he hy
    · simp at h
    · simp at h

theorem depth_insertAll {t t' : CodeTree} {ct : List CodeEntry} {k : Nat} (h : insertAll t ct = some t')
    (ht : depth t ≤ k) (hk : ∀ e ∈ ct, e.code.length ≤ k) : depth t' ≤ k := by
  induction ct generalizing t with
  | nil => obtain rfl : t = t' := by simpa [insertAll] using h
           exact ht
  | cons e ct ih =>
    simp only [insertAll] at h
    split at h
    · simp at h
    · next x hx =>
      have := depth_insertPath hx
      have := hk e (by simp)
      exact ih h (by omega) fun e he => hk e (by simp [he])

end Sys2Proof.Machine
end

