-- ==== Sys2Proof/Laws/Codec.lean ====
section
/-! SUPPORT. Looking up codes and walking a tree (43_codec.md R160 to R164). -/

namespace Sys2Proof.Machine

theorem lookupCode_mem {sym : Byte} {ct : List CodeEntry} {c : Bits} (h : lookupCode sym ct = some c) :
    ⟨sym, c⟩ ∈ ct := by
  induction ct with
  | nil => simp [lookupCode] at h
  | cons e ct ih =>
    unfold lookupCode at h
    split at h
    · next he =>
      cases h
      subst he
      exact List.mem_cons_self ..
    · exact List.mem_cons_of_mem _ (ih h)

theorem lookupCode_isSome {sym : Byte} {ct : List CodeEntry} (h : sym ∈ ct.map fun e => e.sym) :
    ∃ c, lookupCode sym ct = some c := by
  induction ct with
  | nil => simp at h
  | cons e ct ih =>
    unfold lookupCode
    split
    · exact ⟨_, rfl⟩
    · next he =>
      refine ih ?_
      simp only [List.map_cons, List.mem_cons] at h
      rcases h with h | h
      · exact absurd h.symm he
      · exact h

theorem lookupCode_eq_none {sym : Byte} {ct : List CodeEntry} :
    lookupCode sym ct = none ↔ ¬ ∃ e ∈ ct, e.sym = sym := by
  constructor
  · rintro h ⟨e, he, rfl⟩
    obtain ⟨c, hc⟩ := lookupCode_isSome (List.mem_map_of_mem (f := fun e : CodeEntry => e.sym) he)
    simp [h] at hc
  · intro h
    cases hl : lookupCode sym ct with
    | none => rfl
    | some c => exact absurd ⟨_, lookupCode_mem hl, rfl⟩ h

/-- The walk along a path to a leaf emits its symbol and goes on from the root (R163). -/
theorem decodeFrom_path {root cur : CodeTree} {k : Nat} {c B : Bits} {a : Byte} (hc : c ≠ [])
    (h : follow cur c = .leaf a) :
    decodeFrom root cur k (c ++ B) =
      match decodeFrom root root 0 B with
      | .error e => .error e
      | .ok out => .ok (a :: out) := by
  induction c generalizing cur k with
  | nil => exact absurd rfl hc
  | cons b c ih =>
    rw [follow_cons] at h
    rw [List.cons_append, decodeFrom]
    cases hch : child b cur with
    | null => simp [hch] at h
    | leaf x =>
      cases c with
      | nil =>
        obtain rfl : x = a := by simpa [hch] using h
        rfl
      | cons b' c => simp [hch] at h
    | node l r =>
      have hcne : c ≠ [] := by
        rintro rfl
        simp [hch] at h
      exact ih hcne (by simpa [hch] using h)

/-- The walk along a path to a Node stays inside the tree (R163). -/
theorem decodeFrom_node {root cur l r : CodeTree} {k : Nat} {c B : Bits} (h : follow cur c = .node l r) (hc : c ≠ []) :
    decodeFrom root cur k (c ++ B) = decodeFrom root (.node l r) (k + c.length) B := by
  induction c generalizing cur k with
  | nil => exact absurd rfl hc
  | cons b c ih =>
    rw [follow_cons] at h
    rw [List.cons_append, decodeFrom]
    cases hch : child b cur with
    | null => simp [hch] at h
    | leaf x =>
      cases c with
      | nil => simp [hch] at h
      | cons b' c => simp [hch] at h
    | node l' r' =>
      rw [hch] at h
      cases c with
      | nil =>
        simp only [follow_nil] at h
        simp [h]
      | cons b' c =>
        simp only
        rw [ih h (by simp)]
        simp only [List.length_cons]
        congr 1
        omega

@[simp] theorem encodeAll_nil (ct : List CodeEntry) : encodeAll ct [] = [] := rfl

theorem encodeAll_cons (ct : List CodeEntry) (b : Byte) (d : List Byte) :
    encodeAll ct (b :: d) = (lookupCode b ct).getD [] ++ encodeAll ct d := rfl

end Sys2Proof.Machine
end

