-- ==== Sys2Proof/Laws/Decode.lean ====
section
/-! SUPPORT. The fields of an assembled word and of a decoded one (30_encoding.md R70, R72). -/

namespace Sys2Proof

theorem opField_toNat (w : Word) : (opField w).toNat = w.toNat / 2 ^ 56 := by
  have := w.isLt
  simp only [opField, BitVec.extractLsb'_toNat, Nat.shiftRight_eq_div_pow]
  omega

theorem aField_toNat (w : Word) : (aField w).toNat = w.toNat / 2 ^ 48 % 2 ^ 8 := by
  simp only [aField, BitVec.extractLsb'_toNat, Nat.shiftRight_eq_div_pow]

theorem rsvField_toNat (w : Word) : (rsvField w).toNat = w.toNat / 2 ^ 32 % 2 ^ 16 := by
  simp only [rsvField, BitVec.extractLsb'_toNat, Nat.shiftRight_eq_div_pow]

theorem fField_toNat (w : Word) : (fField w).toNat = w.toNat % 2 ^ 32 := by
  simp [fField, BitVec.extractLsb'_toNat]

/-- A word is its four fields (R70). -/
theorem word_fields (w : Word) :
    w.toNat = (opField w).toNat * 2 ^ 56 + (aField w).toNat * 2 ^ 48 + (rsvField w).toNat * 2 ^ 32 +
      (fField w).toNat := by
  rw [opField_toNat, aField_toNat, rsvField_toNat, fField_toNat]
  omega

theorem toNat_append_lt {n m : Nat} (a : BitVec n) (b : BitVec m) :
    (a ++ b).toNat = a.toNat * 2 ^ m + b.toNat := by
  rw [BitVec.toNat_append, Nat.shiftLeft_eq, Nat.mul_comm, Nat.two_pow_add_eq_or_of_lt b.isLt, Nat.mul_comm]

theorem wordOf_toNat (op a : Byte) (f : Freq) :
    (wordOf op a f).toNat = op.toNat * 2 ^ 56 + a.toNat * 2 ^ 48 + f.toNat := by
  unfold wordOf
  rw [toNat_append_lt, toNat_append_lt, toNat_append_lt]
  simp
  ring

@[simp] theorem opField_wordOf (op a : Byte) (f : Freq) : opField (wordOf op a f) = op := by
  apply BitVec.eq_of_toNat_eq
  rw [opField_toNat, wordOf_toNat]
  have := op.isLt; have := a.isLt; have := f.isLt
  omega

@[simp] theorem aField_wordOf (op a : Byte) (f : Freq) : aField (wordOf op a f) = a := by
  apply BitVec.eq_of_toNat_eq
  rw [aField_toNat, wordOf_toNat]
  have := op.isLt; have := a.isLt; have := f.isLt
  omega

@[simp] theorem rsvField_wordOf (op a : Byte) (f : Freq) : rsvField (wordOf op a f) = 0 := by
  apply BitVec.eq_of_toNat_eq
  rw [rsvField_toNat, wordOf_toNat]
  have := op.isLt; have := a.isLt; have := f.isLt
  simp
  omega

@[simp] theorem fField_wordOf (op a : Byte) (f : Freq) : fField (wordOf op a f) = f := by
  apply BitVec.eq_of_toNat_eq
  rw [fField_toNat, wordOf_toNat]
  have := op.isLt; have := a.isLt; have := f.isLt
  omega

end Sys2Proof
end

