-- ==== Sys2Proof/Laws/Exec.lean ====
section
/-! SUPPORT. What every command can do, said once: dropped, failed with one of its causes, or completed with the effect
of its rule (`Effect`). -/

namespace Sys2Proof.Machine

/-- The effect of a command that completes with ERR = 0, before its response: the checks it has passed and the state it
leaves. -/
def Effect : Instr → State → State → Prop
  | .nop, s, t => t = s
  | .clear, s, t => t = s.clearAll
  | .rdreg index, s, t => index.toNat ≤ 10 ∧ t = s
  | .sympush sym freq, s, t =>
    symKnown sym s.symlist = false ∧ aboveLast freq s.symlist = false ∧ t = s.pushSym ⟨sym, freq⟩
  | .build, s, t => ∃ x, build s.symlist = some x ∧ t = s.setTree x
  | .extract, s, t => s.tv = true ∧ t = s.setTable (extract s.tree)
  | .pack, s, t => t = s.setPacked (packBytes s.bitseq) (BitVec.ofNat 8 (padCount s.bitseq.length))
  | .unpack, s, t =>
    s.pv = true ∧ s.pad.toNat ≤ 8 * s.packbuf.length ∧ 8 * s.packbuf.length - s.pad.toNat ≤ s.cfg.bitCap ∧
      t = s.setBits (unpackBits s.packbuf s.pad.toNat)
  | .bitclr, s, t => t = s.setBits []
  | .ser, s, t =>
    s.cv = true ∧ s.pv = true ∧ ∃ blob, serialize s.ctab s.packbuf s.pad = .ok blob ∧ blob.length ≤ s.cfg.outCap ∧
      t = s.setOut blob
  | .deser, s, t => ∃ ct x P p, parseContainer s.inbuf = .ok (ct, x, P, p) ∧ t = s.commitContainer ct x P p
  | .inpush b, s, t => s.inbuf.length + 1 ≤ s.cfg.inCap ∧ t = s.pushIn b
  | .outpop, s, t =>
    (∃ b, s.outbuf[s.outpos.toNat]? = some b ∧ t = s.advanceOut) ∨ (s.outbuf.length ≤ s.outpos.toNat ∧ t = s)
  | .enc sym, s, t =>
    s.cv = true ∧ ∃ c, lookupCode sym s.ctab = some c ∧ s.bitseq.length + c.length ≤ s.cfg.bitCap ∧
      t = s.setBits (s.bitseq ++ c)
  | .dec, s, t =>
    s.cv = true ∧ ∃ D out, decodeTree s.ctab = some D ∧ decodeBits D s.bitseq = .ok out ∧
      out.length ≤ s.cfg.outCap ∧ t = s.setOut out

/-! ### Which causes the data checks raise -/

theorem serialize_error_cause {ct : List CodeEntry} {P : List Byte} {p : Byte} {c : Cause}
    (h : serialize ct P p = .error c) : c = .serEmptyWithBits ∨ c = .serRange := by
  unfold serialize at h
  split at h <;> split at h <;> simp_all

theorem parseCode_error_cause {s len : Byte} {b : List Byte} {ct : List CodeEntry} {t : CodeTree} {c : Cause}
    (h : parseCode s len b ct t = .error c) :
    c ∈ [Cause.zeroLen, .truncCode, .codeWide, .dupSym, .prefixConflict] := by
  unfold parseCode at h
  by_cases h1 : len.toNat = 0
  · simp_all
  by_cases h2 : b.length < ceil8 len.toNat
  · simp_all
  by_cases h3 : 2 ^ len.toNat ≤ unBE (b.take (ceil8 len.toNat))
  · simp_all
  by_cases h4 : ct.any (fun e => e.sym == s) = true
  · simp_all
  rw [if_neg h1, if_neg h2, if_neg h3, if_neg h4] at h
  split at h <;> simp_all

theorem parseEntries_error_cause {n : Nat} {b : List Byte} {ct : List CodeEntry} {t : CodeTree} {c : Cause}
    (h : parseEntries n b ct t = .error c) :
    c ∈ [Cause.truncEntry, .zeroLen, .truncCode, .codeWide, .dupSym, .prefixConflict] := by
  induction n generalizing b ct t with
  | zero => simp [parseEntries] at h
  | succ n ih =>
    unfold parseEntries at h
    split at h
    · split at h
      · next h' => cases h; exact List.mem_cons_of_mem _ (parseCode_error_cause h')
      · exact ih h
    · simp_all
    · simp_all

theorem parseContainer_error_cause {b : List Byte} {c : Cause} (h : parseContainer b = .error c) :
    c ∈ possibleCauses .deser := by
  match b, h with
  | [], h => cases h; decide
  | [_], h => cases h; decide
  | [_, _], h => cases h; decide
  | n1 :: n0 :: p :: rest, h =>
    simp only [parseContainer] at h
    split at h
    · split at h
      · cases h; decide
      · split at h <;> cases h
        decide
    · split at h
      · cases h; decide
      · split at h
        · cases h; decide
        · split at h
          · next h' =>
            cases h
            have := parseEntries_error_cause h'
            simp only [possibleCauses, List.mem_cons, List.not_mem_nil] at this ⊢
            tauto
          · unfold parseRegion at h
            split at h <;> cases h
            decide

theorem decodeFrom_error_cause {root cur : CodeTree} {k : Nat} {B : Bits} {c : Cause}
    (h : decodeFrom root cur k B = .error c) : c = .streamNullChild ∨ c = .streamEndMidPath := by
  induction B generalizing cur k with
  | nil => unfold decodeFrom at h; split at h <;> simp_all
  | cons b bs ih =>
    unfold decodeFrom at h
    split at h
    · simp_all
    · split at h
      · next h' => cases h; exact ih h'
      · simp_all
    · exact ih h

/-- The registers of the map are exactly the indexes 0 to 10 (R31). -/
theorem regValue_isSome_iff (s : State) (index : Byte) : (regValue s index).isSome ↔ index.toNat ≤ 10 := by
  unfold regValue
  split <;> simp_all
  omega

/-! ### The commands -/

/-- With an error recorded every command but NOP, CLEAR and a valid RDREG is dropped (R189). -/
theorem exec_of_err {s : State} (h : s.err = true) (i : Instr) (hn : i ≠ .nop) (hc : i ≠ .clear)
    (hr : ∀ index : Byte, i = .rdreg index → 10 < index.toNat) : exec i s = .next (s.answered false 0) := by
  cases i with
  | nop => exact absurd rfl hn
  | clear => exact absurd rfl hc
  | rdreg index =>
    have hx : regValue s index = none := by
      have := regValue_isSome_iff s index
      have := hr index rfl
      cases hv : regValue s index with
      | none => rfl
      | some v => simp_all; omega
    simp [exec, execRdreg, hx, raise_of_err h]
  | sympush sym freq => exact unlessErr_of_err h _
  | build => exact unlessErr_of_err h _
  | extract => exact unlessErr_of_err h _
  | pack => exact unlessErr_of_err h _
  | unpack => exact unlessErr_of_err h _
  | bitclr => exact unlessErr_of_err h _
  | ser => exact unlessErr_of_err h _
  | deser => exact unlessErr_of_err h _
  | inpush b => exact unlessErr_of_err h _
  | outpop => exact unlessErr_of_err h _
  | enc sym => exact unlessErr_of_err h _
  | dec => exact unlessErr_of_err h _

/-- With ERR = 0 a command fails with one of its causes, completes with its effect, or is one of the two faults. -/
theorem exec_of_clear {s : State} (h : s.err = false) (i : Instr) :
    (∃ c ∈ possibleCauses i, exec i s = .next (s.failed c)) ∨
    (∃ t v d, Effect i s t ∧ (v = false → d = 0) ∧ exec i s = .next (t.answered v d)) ∨
    (i = .build ∧ build s.symlist = none ∧ exec i s = .fault .buildDoesNotEnd) ∨
    (i = .dec ∧ s.cv = true ∧ decodeTree s.ctab = none ∧ exec i s = .fault .noDecodeTree) := by
  cases i with
  | nop => exact .inr (.inl ⟨s, false, 0, rfl, fun _ => rfl, rfl⟩)
  | clear => exact .inr (.inl ⟨s.clearAll, false, 0, rfl, fun _ => rfl, rfl⟩)
  | rdreg index =>
    cases hv : regValue s index with
    | none => exact .inl ⟨.badRegIndex, by simp [possibleCauses], by simp [exec, execRdreg, hv, raise_of_clear h]⟩
    | some v =>
      exact .inr (.inl ⟨s, true, v, ⟨(regValue_isSome_iff s index).1 (by simp [hv]), rfl⟩, by simp,
        by simp [exec, execRdreg, hv, respond_eq]⟩)
  | sympush sym freq =>
    simp only [exec, execSympush, unlessErr_of_clear h]
    rcases hk : symKnown sym s.symlist with _ | _
    · rcases ha : aboveLast freq s.symlist with _ | _
      · exact .inr (.inl ⟨_, false, 0, ⟨hk, ha, rfl⟩, fun _ => rfl, rfl⟩)
      · exact .inl ⟨.symUnsorted, by simp [possibleCauses], by simp [raise_of_clear h]⟩
    · exact .inl ⟨.symDup, by simp [possibleCauses], by simp [raise_of_clear h]⟩
  | build =>
    simp only [exec, execBuild, unlessErr_of_clear h]
    cases hb : build s.symlist with
    | none => exact .inr (.inr (.inl ⟨trivial, rfl, rfl⟩))
    | some x => exact .inr (.inl ⟨_, false, 0, ⟨x, hb, rfl⟩, fun _ => rfl, rfl⟩)
  | extract =>
    simp only [exec, execExtract, unlessErr_of_clear h]
    rcases ht : s.tv with _ | _
    · exact .inl ⟨.noTree, by simp [possibleCauses], by simp [raise_of_clear h]⟩
    · exact .inr (.inl ⟨_, false, 0, ⟨ht, rfl⟩, fun _ => rfl, rfl⟩)
  | pack =>
    simp only [exec, execPack, unlessErr_of_clear h]
    exact .inr (.inl ⟨_, false, 0, rfl, fun _ => rfl, rfl⟩)
  | unpack =>
    simp only [exec, execUnpack, unlessErr_of_clear h]
    rcases hp : s.pv with _ | _
    · exact .inl ⟨.noPacked, by simp [possibleCauses], by simp [raise_of_clear h]⟩
    · by_cases h1 : s.pad.toNat ≤ 8 * s.packbuf.length
      · by_cases h2 : 8 * s.packbuf.length - s.pad.toNat ≤ s.cfg.bitCap
        · exact .inr (.inl ⟨_, false, 0, ⟨hp, h1, h2, rfl⟩, fun _ => rfl, by
            simp only [h1, h2, decide_true, require_true, succeed_eq]⟩)
        · exact .inl ⟨.bitsFull, by simp [possibleCauses], by
            simp only [h1, h2, decide_true, decide_false, require_true, require_false, raise_of_clear h]⟩
      · exact .inl ⟨.unpackPadExceeds, by simp [possibleCauses], by
          simp only [h1, decide_false, require_true, require_false, raise_of_clear h]⟩
  | bitclr =>
    simp only [exec, execBitclr, unlessErr_of_clear h]
    exact .inr (.inl ⟨_, false, 0, rfl, fun _ => rfl, rfl⟩)
  | ser =>
    simp only [exec, execSer, unlessErr_of_clear h]
    rcases hc : s.cv with _ | _
    · exact .inl ⟨.noTable, by simp [possibleCauses], by simp [raise_of_clear h]⟩
    rcases hp : s.pv with _ | _
    · exact .inl ⟨.noPacked, by simp [possibleCauses], by simp [raise_of_clear h]⟩
    rcases hs : serialize s.ctab s.packbuf s.pad with c | blob
    · refine .inl ⟨c, ?_, by simp [raise_of_clear h]⟩
      rcases serialize_error_cause hs with rfl | rfl <;> simp [possibleCauses]
    · by_cases hl : blob.length ≤ s.cfg.outCap
      · exact .inr (.inl ⟨_, false, 0, ⟨hc, hp, blob, hs, hl, rfl⟩, fun _ => rfl, by simp [hl]⟩)
      · exact .inl ⟨.outFull, by simp [possibleCauses], by simp [hl, raise_of_clear h]⟩
  | deser =>
    simp only [exec, execDeser, unlessErr_of_clear h]
    rcases hs : parseContainer s.inbuf with c | ⟨ct, x, P, p⟩
    · exact .inl ⟨c, parseContainer_error_cause hs, by simp [raise_of_clear h]⟩
    · exact .inr (.inl ⟨_, false, 0, ⟨ct, x, P, p, hs, rfl⟩, fun _ => rfl, rfl⟩)
  | inpush b =>
    simp only [exec, execInpush, unlessErr_of_clear h]
    by_cases hl : s.inbuf.length + 1 ≤ s.cfg.inCap
    · exact .inr (.inl ⟨_, false, 0, ⟨hl, rfl⟩, fun _ => rfl, by simp [hl]⟩)
    · exact .inl ⟨.inFull, by simp [possibleCauses], by simp [hl, raise_of_clear h]⟩
  | outpop =>
    simp only [exec, execOutpop, unlessErr_of_clear h]
    cases hb : s.outbuf[s.outpos.toNat]? with
    | none =>
      exact .inr (.inl ⟨s, false, 0, .inr ⟨List.getElem?_eq_none_iff.1 hb, rfl⟩, fun _ => rfl, by simp [respond_eq]⟩)
    | some b => exact .inr (.inl ⟨s.advanceOut, true, _, .inl ⟨b, hb, rfl⟩, by simp, respond_eq ..⟩)
  | enc sym =>
    simp only [exec, execEnc, unlessErr_of_clear h]
    rcases hc : s.cv with _ | _
    · exact .inl ⟨.noTable, by simp [possibleCauses], by simp [raise_of_clear h]⟩
    rcases hl : lookupCode sym s.ctab with _ | c
    · exact .inl ⟨.encNoEntry, by simp [possibleCauses], by simp [raise_of_clear h]⟩
    · by_cases hb : s.bitseq.length + c.length ≤ s.cfg.bitCap
      · exact .inr (.inl ⟨_, false, 0, ⟨hc, c, hl, hb, rfl⟩, fun _ => rfl, by simp [hb]⟩)
      · exact .inl ⟨.bitsFull, by simp [possibleCauses], by simp [hb, raise_of_clear h]⟩
  | dec =>
    simp only [exec, execDec, unlessErr_of_clear h]
    rcases hc : s.cv with _ | _
    · exact .inl ⟨.noTable, by simp [possibleCauses], by simp [raise_of_clear h]⟩
    rcases ht : decodeTree s.ctab with _ | D
    · exact .inr (.inr (.inr ⟨trivial, rfl, rfl, by simp⟩))
    rcases hd : decodeBits D s.bitseq with c | out
    · refine .inl ⟨c, ?_, by simp [hd, raise_of_clear h]⟩
      rcases decodeFrom_error_cause hd with rfl | rfl <;> simp [possibleCauses]
    · by_cases hl : out.length ≤ s.cfg.outCap
      · exact .inr (.inl ⟨_, false, 0, ⟨hc, D, out, ht, hd, hl, rfl⟩, fun _ => rfl, by simp [hd, hl]⟩)
      · exact .inl ⟨.outFull, by simp [possibleCauses], by simp [hd, hl, raise_of_clear h]⟩

end Sys2Proof.Machine
end

