-- ==== Sys2Proof/Laws/HostSide.lean ====
section
/-! SUPPORT. Running commands one after another (00_scope.md R5) and the passes of DRAIN (30_encoding.md R79). -/

namespace Sys2Proof.Machine

theorem runCommands_cons {i : Instr} {is : List Instr} {s t : State} (h : exec i s = .next t) :
    runCommands (i :: is) s = runCommands is t := by simp [runCommands, h]

theorem runCommands_append {a b : List Instr} {s t : State} (h : runCommands a s = .next t) :
    runCommands (a ++ b) s = runCommands b t := by
  induction a generalizing s with
  | nil =>
    cases h
    rfl
  | cons i a ih =>
    simp only [runCommands, List.cons_append] at h ⊢
    split at h
    · exact ih h
    · cases h
    · cases h

@[simp] theorem dvalidField_responseWord (status : Status) (dvalid : Bool) (data : Data) :
    dvalidField (responseWord status dvalid data) = dvalid := by
  simp only [dvalidField, responseWord, BitVec.getLsbD_append]
  cases dvalid <;> rfl

/-- Everything OUTPOP does with ERR = 0 and a byte at OUTPOS (R146). -/
theorem exec_outpop_of_byte {s : State} {b : Byte} (he : s.err = false) (hb : s.outbuf[s.outpos.toNat]? = some b) :
    exec .outpop s = .next (s.advanceOut.answered true (b.zeroExtend 32)) := by
  simp only [exec, execOutpop, unlessErr_of_clear he, hb, respond_eq]

/-- Everything OUTPOP does with ERR = 0 at the end of OUT (R146). -/
theorem exec_outpop_at_end {s : State} (he : s.err = false) (h : s.outbuf.length ≤ s.outpos.toNat) :
    exec .outpop s = .next (s.answered false 0) := by
  simp only [exec, execOutpop, unlessErr_of_clear he, List.getElem?_eq_none h, respond_eq]

/-- A response with DVALID = 0 ends the loop. -/
theorem drainLoop_stop {s t : State} {data : Data} (n : Nat) (h : exec .outpop s = .next (t.answered false data)) :
    drainLoop (n + 1) s = .next (t.answered false data) := by
  simp [drainLoop, h]

/-- A response with DVALID = 1 goes on with the next pass. -/
theorem drainLoop_more {s t : State} {data : Data} (n : Nat) (h : exec .outpop s = .next (t.answered true data)) :
    drainLoop (n + 1) s = drainLoop n (t.answered true data) := by
  simp [drainLoop, h]

end Sys2Proof.Machine
end

