-- ==== Sys2Proof/Laws/PerInstr.lean ====
section
/-! SUPPORT. The family EncodedRow, one lemma per command: the row of the opcode map that the encoding of the command
selects is the command's own (30_encoding.md R72). -/

namespace Sys2Proof.Laws.EncodedRow

/-- The row found for the fields of `encode i` makes `i`, and `encode i` has its must-be-zero fields zero. -/
def Statement (i : Instr) : Prop :=
  ∃ useA useF, opRow (opField (encode i)) (aField (encode i)) (fField (encode i)) = some (useA, useF, i) ∧
    fieldsZero useA useF (encode i) = true

theorem nop : Statement .nop := ⟨false, false, by decide, by decide⟩
theorem clear : Statement .clear := ⟨false, false, by decide, by decide⟩
theorem rdreg (index : Byte) : Statement (.rdreg index) :=
  ⟨true, false, by simp [encode, opcode, aOperand, opRow], by simp [encode, fOperand, fieldsZero]⟩
theorem sympush (sym : Byte) (freq : Freq) : Statement (.sympush sym freq) :=
  ⟨true, true, by simp [encode, opcode, aOperand, fOperand, opRow], by simp [encode, fieldsZero]⟩
theorem build : Statement .build := ⟨false, false, by decide, by decide⟩
theorem extract : Statement .extract := ⟨false, false, by decide, by decide⟩
theorem pack : Statement .pack := ⟨false, false, by decide, by decide⟩
theorem unpack : Statement .unpack := ⟨false, false, by decide, by decide⟩
theorem bitclr : Statement .bitclr := ⟨false, false, by decide, by decide⟩
theorem ser : Statement .ser := ⟨false, false, by decide, by decide⟩
theorem deser : Statement .deser := ⟨false, false, by decide, by decide⟩
theorem inpush (byte : Byte) : Statement (.inpush byte) :=
  ⟨true, false, by simp [encode, opcode, aOperand, opRow], by simp [encode, fOperand, fieldsZero]⟩
theorem outpop : Statement .outpop := ⟨false, false, by decide, by decide⟩
theorem enc (sym : Byte) : Statement (.enc sym) :=
  ⟨true, false, by simp [encode, opcode, aOperand, opRow], by simp [encode, fOperand, fieldsZero]⟩
theorem dec : Statement .dec := ⟨false, false, by decide, by decide⟩

end Sys2Proof.Laws.EncodedRow
end

