-- ==== Sys2Proof/Machine/Assembler.lean ====
section
/-! DEFINITION. The command assembly of 30_encoding.md R78, one line to one command, a word "written as 16 hex digits", and
the lines of the pseudo-instructions of R79. The host's; nothing here is used by `step`. DESIGN CHOICE (log 15): tokens
are separated by spaces and tabs, names are upper case as the spec writes them, a blank or comment line is no
command. -/

namespace Sys2Proof.Machine

/-- The value of a decimal digit. -/
def decDigit (c : Char) : Option Nat :=
  if 48 ≤ c.toNat ∧ c.toNat ≤ 57 then some (c.toNat - 48) else none

/-- The value of a hexadecimal digit, of either case. -/
def hexDigit (c : Char) : Option Nat :=
  if 48 ≤ c.toNat ∧ c.toNat ≤ 57 then some (c.toNat - 48)
  else if 65 ≤ c.toNat ∧ c.toNat ≤ 70 then some (c.toNat - 55)
  else if 97 ≤ c.toNat ∧ c.toNat ≤ 102 then some (c.toNat - 87)
  else none

/-- Decimal digits read after a value. -/
def decDigits (acc : Nat) : List Char → Option Nat
  | [] => some acc
  | c :: cs =>
    match decDigit c with
    | none => none
    | some d => decDigits (10 * acc + d) cs

/-- Hexadecimal digits read after a value. -/
def hexDigits (acc : Nat) : List Char → Option Nat
  | [] => some acc
  | c :: cs =>
    match hexDigit c with
    | none => none
    | some d => hexDigits (16 * acc + d) cs

/-- A number: decimal, or hexadecimal after `0x` (R78). -/
def asmNumber : List Char → Option Nat
  | [] => none
  | ['0', 'x'] => none
  | '0' :: 'x' :: ds => hexDigits 0 ds
  | ds => decDigits 0 ds

/-- A byte operand: a number, or a character literal, which is its ASCII code (R78; G2, log 14). -/
def asmByte (t : List Char) : Option Byte :=
  match t with
  | ['\'', c, '\''] => if c.toNat < 128 then some (BitVec.ofNat 8 c.toNat) else none
  | _ =>
    match asmNumber t with
    | none => none
    | some n => if n < 256 then some (BitVec.ofNat 8 n) else none

/-- A frequency operand. One of 2^32 or more "cannot be written in the 32-bit F field" (93_implementation_defined.md
I12). -/
def asmFreq (t : List Char) : Option Freq :=
  match asmNumber t with
  | none => none
  | some n => if n < 2 ^ 32 then some (BitVec.ofNat 32 n) else none

/-- The register names of 10_state.md R31, by index. -/
def regNames : List (List Char) :=
  [['S', 'T', 'A', 'T', 'U', 'S'], ['S', 'L', 'C', 'N', 'T'], ['C', 'T', 'C', 'N', 'T'],
    ['B', 'I', 'T', 'L', 'E', 'N'], ['P', 'B', 'L', 'E', 'N'], ['P', 'A', 'D'], ['I', 'N', 'L', 'E', 'N'],
    ['O', 'U', 'T', 'L', 'E', 'N'], ['O', 'U', 'T', 'P', 'O', 'S'],
    ['T', 'R', 'E', 'E', 'I', 'N', 'F', 'O'], ['M', 'A', 'X', 'L', 'E', 'N']]

/-- The operand of RDREG: a register name or a byte operand (R78). -/
def asmReg (t : List Char) : Option Byte :=
  match regNames.findIdx? (fun n => n == t) with
  | some k => some (BitVec.ofNat 8 k)
  | none => asmByte t

/-- The commands without an operand, by mnemonic (R78). -/
def plainMnemonics : List (List Char × Instr) :=
  [(['N', 'O', 'P'], .nop), (['C', 'L', 'E', 'A', 'R'], .clear), (['B', 'U', 'I', 'L', 'D'], .build),
    (['E', 'X', 'T', 'R', 'A', 'C', 'T'], .extract), (['P', 'A', 'C', 'K'], .pack),
    (['U', 'N', 'P', 'A', 'C', 'K'], .unpack), (['B', 'I', 'T', 'C', 'L', 'R'], .bitclr),
    (['S', 'E', 'R'], .ser), (['D', 'E', 'S', 'E', 'R'], .deser),
    (['O', 'U', 'T', 'P', 'O', 'P'], .outpop), (['D', 'E', 'C'], .dec)]

/-- The tokens of a line, a comma and a parenthesis being tokens of their own. A character literal is kept whole, and `;` starts a
comment (R78). `cur` is the token being read. -/
def asmTokens (cur : List Char) : List Char → List (List Char)
  | [] => if cur = [] then [] else [cur]
  | '\'' :: c :: '\'' :: rest => asmTokens (cur ++ ['\'', c, '\'']) rest
  | c :: rest =>
    if c = ';' then (if cur = [] then [] else [cur])
    else if c = ' ' ∨ c = '\t' then (if cur = [] then asmTokens [] rest else cur :: asmTokens [] rest)
    else if c = ',' ∨ c = '(' ∨ c = ')' then
      (if cur = [] then [c] :: asmTokens [] rest else cur :: [c] :: asmTokens [] rest)
    else asmTokens (cur ++ [c]) rest

/-- The command of a line's tokens: `MNEMONIC`, `MNEMONIC a`, or `MNEMONIC a, f` (R78). -/
def asmCommand : List (List Char) → Option Instr
  | [m] => (plainMnemonics.find? fun p => p.1 == m).map fun p => p.2
  | [m, a] =>
    if m = ['R', 'D', 'R', 'E', 'G'] then (asmReg a).map Instr.rdreg
    else if m = ['I', 'N', 'P', 'U', 'S', 'H'] then (asmByte a).map Instr.inpush
    else if m = ['E', 'N', 'C'] then (asmByte a).map Instr.enc
    else none
  | [m, a, [','], f] =>
    if m = ['S', 'Y', 'M', 'P', 'U', 'S', 'H'] then
      match asmByte a, asmFreq f with
      | some s, some n => some (.sympush s n)
      | _, _ => none
    else none
  | _ => none

/-- The command of a line of assembly; `none` where the line holds none (R78). -/
def assembleLine (line : List Char) : Option Instr := asmCommand (asmTokens [] line)

/-! ### The lines of the pseudo-instructions (R79) -/

/-- `(s0,f0), ..., (sk,fk)`. -/
def asmPairs : List (List Char) → Option (List SymEntry)
  | [['('], a, [','], f, [')']] =>
    match asmByte a, asmFreq f with
    | some s, some n => some [⟨s, n⟩]
    | _, _ => none
  | ['('] :: a :: [','] :: f :: [')'] :: [','] :: rest =>
    match asmByte a, asmFreq f, asmPairs rest with
    | some s, some n, some es => some (⟨s, n⟩ :: es)
    | _, _, _ => none
  | _ => none

/-- Byte operands one after another, each read by `byte`. -/
def asmBytes (byte : List Char → Option Byte) : List (List Char) → Option (List Byte)
  | [] => some []
  | t :: ts =>
    match byte t, asmBytes byte ts with
    | some b, some bs => some (b :: bs)
    | _, _ => none

/-- A byte of PUSHBLOB: two hex digits, as 95_test_vectors.md section 0 writes the bytes of a blob, or a byte operand of
R78 (log 15). -/
def asmBlobByte (t : List Char) : Option Byte :=
  match t with
  | [h, l] =>
    match hexDigit h, hexDigit l with
    | some a, some b => some (BitVec.ofNat 8 (16 * a + b))
    | _, _ => asmByte t
  | _ => asmByte t

/-- The bytes of a string literal, up to its closing quote, and the rest of the line (log 14). -/
def asmString : List Char → Option (List Byte × List Char)
  | [] => none
  | c :: cs =>
    if c = '"' then some ([], cs)
    else if c.toNat < 128 then
      match asmString cs with
      | none => none
      | some (bs, rest) => some (BitVec.ofNat 8 c.toNat :: bs, rest)
    else none

/-- The pseudo-instruction of a line's tokens. -/
def asmPseudo : List (List Char) → Option Pseudo
  | [] => none
  | m :: ts =>
    if m = ['S', 'Y', 'M', 'T', 'A', 'B'] then (asmPairs ts).map Pseudo.symtab
    else if m = ['E', 'N', 'C', 'S', 'T', 'R'] then (asmBytes asmByte ts).map Pseudo.encstr
    else if m = ['P', 'U', 'S', 'H', 'B', 'L', 'O', 'B'] then (asmBytes asmBlobByte ts).map Pseudo.pushblob
    else if ts = [] then
      if m = ['F', 'I', 'N', 'I', 'S', 'H'] then some .finish
      else if m = ['D', 'E', 'C', 'O', 'M', 'P', 'R', 'E', 'S', 'S'] then some .decompress
      else if m = ['R', 'D', 'S', 'T', 'A', 'T'] then some .rdstat
      else none
    else none

/-- A line from its first character that is no space or tab. -/
def skipBlanks : List Char → List Char
  | [] => []
  | c :: cs => if c = ' ' ∨ c = '\t' then skipBlanks cs else c :: cs

/-- ENCSTR with a string literal (R79). DESIGN CHOICE (log 15): as between other tokens, spaces and tabs may stand before
ENCSTR, between it and the literal, where none need stand, and after the literal, where a comment may follow. -/
def asmEncstrLiteral (line : List Char) : Option Pseudo :=
  match skipBlanks line with
  | 'E' :: 'N' :: 'C' :: 'S' :: 'T' :: 'R' :: after =>
    match skipBlanks after with
    | '"' :: cs =>
      match asmString cs with
      | none => none
      | some (bs, rest) => if asmTokens [] rest = [] then some (.encstr bs) else none
    | _ => none
  | _ => none

/-- The pseudo-instruction of a line, ENCSTR also with a string literal (R79). DRAIN, "a host loop, not a fixed
expansion", has no line here: it is `drain`. -/
def assemblePseudo (line : List Char) : Option Pseudo :=
  match asmEncstrLiteral line with
  | some p => some p
  | none => asmPseudo (asmTokens [] line)

/-- The commands of a line: one command, or the expansion of a pseudo-instruction. -/
def expandLine (line : List Char) : Option (List Instr) :=
  match assembleLine line with
  | some i => some [i]
  | none => (assemblePseudo line).map expand

/-! ### Words as text -/

/-- The upper-case hexadecimal digit of a value below 16. -/
def hexChar (n : Nat) : Char := if n < 10 then Char.ofNat (48 + n) else Char.ofNat (55 + n)

/-- The last `n` hexadecimal digits of a value, most significant first. -/
def hexText (v : Nat) : Nat → List Char
  | 0 => []
  | n + 1 => hexChar (v / 16 ^ n % 16) :: hexText v n

/-- A word "written as 16 hex digits" (R78). -/
def wordText (w : Word) : List Char := hexText w.toNat 16

end Sys2Proof.Machine
end

