-- ==== Sys2Proof/Tests/Slice0.lean ====
section
/-! SUPPORT. Tests against the spec's own words and vectors (95_test_vectors.md; each test names its vector), and for every
statement of Certificates/Slice0/Obligations.lean that has hypotheses a `witness_<statement>` that meets them together,
clause by clause and at the boundaries of their ranges. -/

namespace Sys2Proof.Tests
open Sys2Proof.Machine

/-! ### Helpers -/

/-- The state after a step or a command that has a next state. -/
def stateAfter : Result → Option State
  | .next s => some s
  | .fault _ => none
  | .refused _ => none

/-- The response a step or a command gives. -/
def responseOf (r : Result) : Option Word := (stateAfter r).bind fun s => s.responses.getLast?

/-- STATUS after a step or a command. -/
def statusOf (r : Result) : Option Status := (stateAfter r).map statusWord

/-- The step that a word issued in a state runs. -/
def issue (w : Word) (s : State) : Result := step (s.withFetchWord 64 w.toNat)

/-- A state with ERR = 1: TRUNC_HEADER. -/
def errState : State := { State.reset with err := true, eclass := 1, ecause := 1 }

/-- The tree and the table of the source's scenario (L1-1). -/
def tree4 : CodeTree := .node (.node (.leaf 0x44) (.leaf 0x43)) (.node (.leaf 0x42) (.leaf 0x41))

def table4 : List CodeEntry :=
  [⟨0x44, [false, false]⟩, ⟨0x43, [false, true]⟩, ⟨0x42, [true, false]⟩, ⟨0x41, [true, true]⟩]

def symlist4 : List SymEntry := [⟨0x44, 45⟩, ⟨0x43, 30⟩, ⟨0x42, 15⟩, ⟨0x41, 10⟩]

/-- "11100100", the code of "ABCD" (L1-1). -/
def bits4 : Bits := [true, true, true, false, false, true, false, false]

/-- The blob of L1-1. -/
def blob4 : List Byte :=
  [0x00, 0x04, 0x08, 0x44, 0x02, 0x00, 0x43, 0x02, 0x01, 0x42, 0x02, 0x02, 0x41, 0x02, 0x03, 0xE4, 0x00]

/-- The block after L1-1, with one byte of OUT popped and an input byte pushed. -/
def sample : State :=
  { State.reset with
    tv := true, cv := true, pv := true, symlist := symlist4, tree := tree4, ctab := table4, bitseq := bits4,
    packbuf := [0xE4, 0x00], pad := 8, inbuf := [0x00], outbuf := blob4, outpos := 1 }

/-- The smallest capacities R7 allows. -/
def smallest : Config := { inCap := 3, outCap := 3, bitCap := 255 }

/-! ### Well-formedness: the one check, and a term it refuses -/

theorem test_wf_refuses_register_11 : Instr.wellFormed (.rdreg 11) = false := by decide

theorem test_wf_refuses_register_255 : Instr.wellFormed (.rdreg 255) = false := by decide

theorem test_wf_accepts_register_10 : Instr.wellFormed (.rdreg 10) = true := by decide

/-! ### Decoding: for every row a word written out as OP, A, RSV, F (R70, R72) -/

theorem test_decode_nop :
    decodeTableWord 64 0b00000000_00000000_0000000000000000_00000000000000000000000000000000 = some .nop := by decide

theorem test_decode_clear :
    decodeTableWord 64 0b00000001_00000000_0000000000000000_00000000000000000000000000000000 = some .clear := by decide

theorem test_decode_rdreg :
    decodeTableWord 64 0b00000010_00001010_0000000000000000_00000000000000000000000000000000 = some (.rdreg 10) := by
  decide

theorem test_decode_sympush :
    decodeTableWord 64 0b00010000_01000100_0000000000000000_10000000000000000000000000101101 =
      some (.sympush 0x44 0x8000002D) := by decide

theorem test_decode_build :
    decodeTableWord 64 0b00010001_00000000_0000000000000000_00000000000000000000000000000000 = some .build := by decide

theorem test_decode_extract :
    decodeTableWord 64 0b00010010_00000000_0000000000000000_00000000000000000000000000000000 = some .extract := by
  decide

theorem test_decode_pack :
    decodeTableWord 64 0b00100000_00000000_0000000000000000_00000000000000000000000000000000 = some .pack := by decide

theorem test_decode_unpack :
    decodeTableWord 64 0b00100001_00000000_0000000000000000_00000000000000000000000000000000 = some .unpack := by decide

theorem test_decode_bitclr :
    decodeTableWord 64 0b00100010_00000000_0000000000000000_00000000000000000000000000000000 = some .bitclr := by decide

theorem test_decode_ser :
    decodeTableWord 64 0b00110000_00000000_0000000000000000_00000000000000000000000000000000 = some .ser := by decide

theorem test_decode_deser :
    decodeTableWord 64 0b00110001_00000000_0000000000000000_00000000000000000000000000000000 = some .deser := by decide

theorem test_decode_inpush :
    decodeTableWord 64 0b00110010_11100100_0000000000000000_00000000000000000000000000000000 = some (.inpush 0xE4) := by
  decide

theorem test_decode_outpop :
    decodeTableWord 64 0b00110011_00000000_0000000000000000_00000000000000000000000000000000 = some .outpop := by decide

theorem test_decode_enc :
    decodeTableWord 64 0b01000000_01000001_0000000000000000_00000000000000000000000000000000 = some (.enc 0x41) := by
  decide

theorem test_decode_dec :
    decodeTableWord 64 0b01000001_00000000_0000000000000000_00000000000000000000000000000000 = some .dec := by decide

/-- R73: no reserved opcode decodes. -/
theorem test_reserved_opcodes : ∀ op ∈ [0x03, 0x0F, 0x13, 0x1F, 0x23, 0x2F, 0x34, 0x3F, 0x42, 0xFF],
    decodeTableWord 64 (op * 2 ^ 56) = none := by decide

/-- R73: RSV non-zero; F non-zero on RDREG; A non-zero on BUILD. -/
theorem test_reserved_fields : ∀ w ∈ [0x0000000100000000, 0x0000800000000000, 0x0203000000000001, 0x1101000000000000],
    decodeTableWord 64 w = none := by decide

/-- R78's worked encoding, from the line and back to its hex digits. -/
theorem test_assemble_sympush : (assembleLine "SYMPUSH 'D', 45 ; the first symbol".toList).map (fun i => wordText (encode i)) =
    some "104400000000002D".toList := by decide

/-- R78: RDREG takes the register names of R31. -/
theorem test_assemble_rdreg : (assembleLine "RDREG BITLEN".toList).map encode = some 0x0203000000000000 := by decide

/-- R79: SYMTAB on the first two symbols of the scenario. -/
theorem test_assemble_symtab : expandLine "SYMTAB ('D',45), ('C',30)".toList =
    some [.sympush 0x44 45, .sympush 0x43 30] := by decide

/-- P4's line: ENCSTR of a string literal. -/
theorem test_assemble_encstr : expandLine "ENCSTR \"ABR\" ; P4".toList = some [.enc 0x41, .enc 0x42, .enc 0x52] := by
  decide

/-- Log 15: blanks before ENCSTR and around its literal. -/
theorem test_assemble_encstr_blanks : expandLine "  ENCSTR\t  \"A B\"  ".toList = some [.enc 0x41, .enc 0x20, .enc 0x42] := by
  decide

/-- P3's line: PUSHBLOB of bytes in hex digits. -/
theorem test_assemble_pushblob : expandLine "PUSHBLOB 00 01 05 61".toList =
    some [.inpush 0x00, .inpush 0x01, .inpush 0x05, .inpush 0x61] := by decide

/-! ### One step of each command -/

/-- R175's example: from reset NOP returns 0. -/
theorem test_nop : responseOf (issue 0x0000000000000000 State.reset) = some 0x0000000000000000 := by decide

/-- R175: a NOP executes under ERR = 1 and shows the first error (R176's example, STATUS 0x0013). -/
theorem test_nop_err : responseOf (issue 0x0000000000000000 errState) = some 0x0013000000000000 := by decide

/-- R176's example: CLEAR returns STATUS 0. -/
theorem test_clear : responseOf (issue 0x0100000000000000 errState) = some 0x0000000000000000 := by decide

/-- R176: CLEAR empties the data state. -/
theorem test_clear_data : (stateAfter (exec .clear sample)).map (fun s => (s.ctab, s.packbuf, s.pad, s.outpos)) =
    some ([], [], 0, 0) := by decide

/-- R177's example: RDREG BITLEN after the scenario gives 8 with DVALID = 1. -/
theorem test_rdreg : responseOf (issue 0x0203000000000000 sample) = some 0x7000000100000008 := by decide

/-- L1-3: TREEINFO of the single Leaf 61. -/
theorem test_rdreg_treeinfo :
    responseOf (exec (.rdreg 9) { State.reset with tree := .leaf 0x61, tv := true }) = some 0x1000000100016101 := by
  decide

/-- B24: the full range of A and F. -/
theorem test_sympush : (stateAfter (issue 0x10FF0000FFFFFFFF State.reset)).map (fun s => s.symlist) =
    some [⟨0xFF, 0xFFFFFFFF⟩] := by decide

/-- B22: SYM_UNSORTED, STATUS 0x0027. -/
theorem test_sympush_unsorted :
    statusOf (exec (.sympush 0x43 50) { State.reset with symlist := [⟨0x44, 45⟩] }) = some 0x0027 := by decide

/-- B6: the exact half, not its floor. -/
theorem test_build :
    (stateAfter (exec .build { State.reset with symlist := [⟨1, 37⟩, ⟨2, 20⟩, ⟨3, 18⟩] })).map (fun s => s.tree) =
      some (.node (.node (.leaf 1) (.leaf 2)) (.leaf 3)) := by decide

/-- B26: BUILD of nothing, STATUS 0x1000. -/
theorem test_build_empty : statusOf (issue 0x1100000000000000 State.reset) = some 0x1000 := by decide

/-- B4b: the codes of the right spine. -/
theorem test_extract :
    (stateAfter (exec .extract { State.reset with
      tv := true, tree := .node (.leaf 1) (.node (.leaf 2) (.node (.leaf 3) (.leaf 4))) })).map (fun s => s.ctab) =
      some [⟨1, [false]⟩, ⟨2, [true, false]⟩, ⟨3, [true, true, false]⟩, ⟨4, [true, true, true]⟩] := by decide

/-- B25: NO_TREE, STATUS 0x0037. -/
theorem test_extract_no_tree : statusOf (issue 0x1200000000000000 State.reset) = some 0x0037 := by decide

/-- K6: "101010101" packs to AA 80, PAD 7. -/
theorem test_pack :
    (stateAfter (exec .pack { State.reset with
      bitseq := [true, false, true, false, true, false, true, false, true] })).map (fun s => (s.packbuf, s.pad)) =
      some ([0xAA, 0x80], 7) := by decide

/-- K5: an aligned stream gets a whole padding byte. -/
theorem test_pack_aligned : (stateAfter (exec .pack sample)).map (fun s => (s.packbuf, s.pad)) =
    some ([0xE4, 0x00], 8) := by decide

/-- K12: AB with PAD 4 gives "1010". -/
theorem test_unpack :
    (stateAfter (exec .unpack { State.reset with packbuf := [0xAB], pad := 4, pv := true })).map (fun s => s.bitseq) =
      some [true, false, true, false] := by decide

/-- K10: NO_PACKED, STATUS 0x0057. -/
theorem test_unpack_no_packed : statusOf (issue 0x2100000000000000 State.reset) = some 0x0057 := by decide

/-- R125's example. -/
theorem test_bitclr : (stateAfter (exec .bitclr sample)).map (fun s => s.bitseq) = some [] := by decide

/-- L1-1: the 17 bytes of the blob. -/
theorem test_ser : (stateAfter (exec .ser { sample with outbuf := [], outpos := 0 })).map (fun s => (s.outbuf, s.outpos)) =
    some (blob4, 0) := by decide

/-- R83's example, the entry of a 10-bit code. -/
theorem test_entry_two_bytes :
    entryBytes ⟨0x0A, [true, false, false, false, false, false, false, false, false, true]⟩ = [0x0A, 0x0A, 0x02, 0x01] := by
  decide

/-- R140's example: the table of the L1-1 blob, and IN empty. -/
theorem test_deser : (stateAfter (exec .deser { State.reset with inbuf := blob4 })).map (fun s => (s.ctab, s.tree, s.inbuf)) =
    some (table4, tree4, []) := by decide

/-- L1-5: 8 bytes kept, TRUNC_CODE, STATUS 0x0083. -/
theorem test_deser_truncated : statusOf (exec .deser { State.reset with inbuf := blob4.take 8 }) = some 0x0083 := by decide

/-- R139: the byte is the A field. -/
theorem test_inpush : (stateAfter (issue 0x32E4000000000000 sample)).map (fun s => s.inbuf) = some [0x00, 0xE4] := by decide

/-- R146: the byte at OUTPOS, and OUTPOS advances. -/
theorem test_outpop : responseOf (issue 0x3300000000000000 sample) = some 0x7000000100000004 := by decide

/-- D22: at the end OUTPOP returns DVALID = 0. -/
theorem test_outpop_end : responseOf (exec .outpop { sample with outpos := 17 }) = some 0x7000000000000000 := by decide

/-- R160's example: ENC 'A' on the scenario's table. -/
theorem test_enc : (stateAfter (exec (.enc 0x41) { sample with bitseq := [] })).map (fun s => s.bitseq) =
    some [true, true] := by decide

/-- R160's example: ENC 'E' is ENC_NO_ENTRY; class 2, cause 1, with the three flags set. -/
theorem test_enc_no_entry : statusOf (exec (.enc 0x45) sample) = some 0x7015 := by decide

/-- R162's example: OUT is "ABCD". -/
theorem test_dec : (stateAfter (exec .dec sample)).map (fun s => (s.outbuf, s.outpos)) =
    some ([0x41, 0x42, 0x43, 0x44], 0) := by decide

/-- R162: an empty table with bits is STREAM_NULL_CHILD; class 1, cause 0x20, with CV set. -/
theorem test_dec_null : statusOf (exec .dec { State.reset with cv := true, bitseq := [false] }) = some 0x2203 := by decide

/-- R189: a reserved word under ERR = 1 is dropped and shows the first error. -/
theorem test_dropped : responseOf (issue 0x0300000000000000 errState) = some 0x0013000000000000 := by decide

/-- R79: under ERR = 1 DRAIN is one OUTPOP, also with bytes of OUT unread. -/
theorem test_drain_err :
    (stateAfter (drain { errState with outbuf := [0x41, 0x42] })).map (fun s => (s.outpos, s.responses)) =
      some (0, [0x0013000000000000]) := by decide

/-- R146's example: draining the empty container. -/
theorem test_drain : (stateAfter (drain { State.reset with outbuf := [0, 0, 0] })).map (fun s => s.responses) =
    some [0x0000000100000000, 0x0000000100000000, 0x0000000100000000, 0x0000000000000000] := by decide

/-! ### Witnesses: the invariants -/

theorem sample_symlistOk : SymlistOk symlist4 := ⟨by decide, by decide, by decide⟩

theorem sample_tableOk : TableOk table4 :=
  ⟨by decide, by decide, by simp [table4, PrefixFree], by decide⟩

theorem sample_treeOk : TreeOk tree4 := ⟨by decide, by decide⟩

theorem sample_inv : BlockInv sample where
  cfgLegal := by decide
  errZero := by decide
  errCause := fun h => absurd h (by decide)
  symlistOk := sample_symlistOk
  treeOk := sample_treeOk
  tableOk := sample_tableOk
  noTree := by decide
  noTable := by decide
  noPacked := by decide
  padFits := by decide
  padRange := by decide
  bitsFit := by decide
  packedFits := by decide
  inFits := by decide
  outFits := by decide
  outposFits := by decide

theorem errState_inv : BlockInv errState where
  cfgLegal := by decide
  errZero := by decide
  errCause := fun _ => ⟨.truncHeader, by decide, by decide⟩
  symlistOk := ⟨by decide, by decide, by decide⟩
  treeOk := ⟨by decide, by decide⟩
  tableOk := ⟨by decide, by decide, List.Pairwise.nil, by decide⟩
  noTree := by decide
  noTable := by decide
  noPacked := by decide
  padFits := by decide
  padRange := by decide
  bitsFit := by decide
  packedFits := by decide
  inFits := by decide
  outFits := by decide
  outposFits := by decide

/-- Events do not matter to the invariant; a step from the sample has a next state. -/
theorem witness_StepKeepsInvariant :
    BlockInv { sample with events := [.command 0x3300000000000000] } ∧
      (stateAfter (step { sample with events := [.command 0x3300000000000000] })).isSome = true :=
  ⟨⟨sample_inv.1, sample_inv.2, sample_inv.3, sample_inv.4, sample_inv.5, sample_inv.6, sample_inv.7, sample_inv.8,
    sample_inv.9, sample_inv.10, sample_inv.11, sample_inv.12, sample_inv.13, sample_inv.14, sample_inv.15,
    sample_inv.16⟩, by decide⟩

/-- The smallest, the standard and the largest capacities are legal. -/
theorem witness_ResetMeetsInvariant : smallest.Legal ∧ Config.standard.Legal ∧
    Config.Legal { inCap := 2 ^ 32 - 1, outCap := 2 ^ 32 - 1, bitCap := 2 ^ 32 - 9 } := by decide

/-- An unsorted list has no tree, two codes of which one is the other have no decode tree. -/
theorem witness_StepCompletesUnlessOverlapped :
    BlockInv sample ∧ ({ State.reset with symlist := [⟨1, 0⟩, ⟨2, 5⟩] } : State).err = false ∧
      build [⟨1, 0⟩, ⟨2, 5⟩] = none ∧ decodeTree [⟨1, [true]⟩, ⟨2, [true]⟩] = none ∧
      ({ State.reset with cv := true, ctab := [⟨1, [true]⟩, ⟨2, [true]⟩] } : State).cv = true :=
  ⟨sample_inv, by decide⟩

/-! ### Witnesses: words and events -/

theorem witness_StepRunsDecodedCommand :
    ({ sample with events := [.command 0x4041000000000000] } : State).events = .command 0x4041000000000000 :: [] ∧
      decodeTableWord 64 0x4041000000000000 = some (.enc 0x41) := by decide

theorem witness_ClearAndResetGiveResetState :
    ({ sample with events := [.reset, .command 0] } : State).events = .reset :: [.command 0] := by decide

theorem witness_WaitHoldsTheStateAndOverlapIsRefused :
    sample.events = [] ∧ ({ sample with events := [.overlapped 0] } : State).events = .overlapped 0 :: [] := by decide

/-- The steps of a valid RDREG, of an OUTPOP with a byte and of a failing command have next states. -/
theorem witness_EachCommandGivesOneResponse :
    (stateAfter (issue 0x020A000000000000 sample)).isSome = true ∧
      (stateAfter (issue 0x3300000000000000 sample)).isSome = true ∧
      sample.outpos.toNat < sample.outbuf.length ∧ decodeTableWord 64 0x3300000000000000 = some .outpop ∧
      (stateAfter (issue 0x4045000000000000 sample)).isSome = true := by decide

theorem witness_DecodeAndEncodeAgree :
    decode 0x10FF0000FFFFFFFF = .ok (.sympush 0xFF 0xFFFFFFFF) ∧ decode 0x02FF000000000000 = .ok (.rdreg 0xFF) :=
  ⟨rfl, rfl⟩

theorem witness_DecodeFollowsMatchAndMask : decode 0x4100000000000000 = .ok .dec := rfl

/-- The ends of the reserved opcode ranges; each must-be-zero field at its lowest and its highest bit. -/
theorem witness_IllegalWordsRaiseBadCommand :
    State.reset.err = false ∧
    (∀ op ∈ [0x03, 0x0F], ∃ w : Word, w.toNat / 2 ^ 56 = op ∧ 0x03 ≤ w.toNat / 2 ^ 56 ∧ w.toNat / 2 ^ 56 ≤ 0x0F) ∧
    (∀ op ∈ [0x13, 0x1F], ∃ w : Word, w.toNat / 2 ^ 56 = op ∧ 0x13 ≤ w.toNat / 2 ^ 56 ∧ w.toNat / 2 ^ 56 ≤ 0x1F) ∧
    (∀ op ∈ [0x23, 0x2F], ∃ w : Word, w.toNat / 2 ^ 56 = op ∧ 0x23 ≤ w.toNat / 2 ^ 56 ∧ w.toNat / 2 ^ 56 ≤ 0x2F) ∧
    (∀ op ∈ [0x34, 0x3F], ∃ w : Word, w.toNat / 2 ^ 56 = op ∧ 0x34 ≤ w.toNat / 2 ^ 56 ∧ w.toNat / 2 ^ 56 ≤ 0x3F) ∧
    (∀ op ∈ [0x42, 0xFF], ∃ w : Word, w.toNat / 2 ^ 56 = op ∧ 0x42 ≤ w.toNat / 2 ^ 56) ∧
    (∀ w ∈ ([0x3000000100000000, 0x0200800000000000] : List Word), w.toNat / 2 ^ 32 % 2 ^ 16 ≠ 0) ∧
    (∀ w ∈ ([0x1101000000000000, 0x4180000000000000] : List Word),
      w.toNat / 2 ^ 48 % 2 ^ 8 ≠ 0 ∧ w.toNat / 2 ^ 56 ∉ [0x02, 0x10, 0x32, 0x40]) ∧
    (∀ w ∈ ([0x3200000000000001, 0x0200000080000000] : List Word),
      w.toNat % 2 ^ 32 ≠ 0 ∧ w.toNat / 2 ^ 56 ≠ 0x10) := by
  refine ⟨by decide, ?_, ?_, ?_, ?_, ?_, by simp, by simp, by simp⟩
  all_goals
    intro op h
    refine ⟨BitVec.ofNat 64 (op * 2 ^ 56), ?_⟩
    simp only [List.mem_cons, List.not_mem_nil, or_false] at h
    rcases h with rfl | rfl <;> decide

/-- For every opcode a word with a bad field, which is issued in a state with ERR = 0 and in one with ERR = 1
(`RejectsBadFields`). -/
theorem witness_RejectsBadFields :
    (∀ op ∈ [0x00, 0x01, 0x02, 0x10, 0x11, 0x12, 0x20, 0x21, 0x22, 0x30, 0x31, 0x32, 0x33, 0x40, 0x41],
      (BitVec.ofNat 64 (op * 2 ^ 56 + 2 ^ 32)).toNat / 2 ^ 56 = op ∧
        (BitVec.ofNat 64 (op * 2 ^ 56 + 2 ^ 32)).toNat / 2 ^ 32 % 2 ^ 16 ≠ 0) ∧
      (0x01FF000000000000 : Word).toNat / 2 ^ 48 % 2 ^ 8 ≠ 0 ∧ (0x0100000000000001 : Word).toNat % 2 ^ 32 ≠ 0 ∧
      sample.err = false ∧ errState.err = true := by decide

/-! ### Witnesses: errors -/

/-- A failing command, and the two decode errors. -/
theorem witness_FailingCommandChangesOnlyTheErrorFields :
    sample.err = false ∧ (stateAfter (exec (.enc 0x45) sample)).map (fun s => s.err) = some true ∧
      decode 0xFF00000000000000 = .error .reservedOpcode ∧ decode 0x0000000100000000 = .error .reservedField :=
  ⟨by decide, by decide, rfl, rfl⟩

theorem witness_StickyErrorDropsOtherCommands :
    errState.err = true ∧ (10 : Byte).toNat ≤ 10 ∧ Instr.dec ≠ .nop ∧ Instr.dec ≠ .clear ∧
      (∀ index : Byte, Instr.rdreg 11 = .rdreg index → 10 < index.toNat) ∧
      decode 0x42FF0000FFFFFFFF = .error .reservedOpcode := by
  refine ⟨by decide, by decide, by decide, by decide, ?_, rfl⟩
  intro index h
  cases h
  decide

/-- CLEAR, reset and any other word step in the error state. -/
theorem witness_OnlyClearOrResetLeavesTheErrorState :
    errState.err = true ∧ (stateAfter (issue 0x0100000000000000 errState)).map (fun s => s.err) = some false ∧
      (stateAfter (step { errState with events := [.reset] })).map (fun s => s.err) = some false ∧
      (stateAfter (issue 0x1100000000000000 errState)).map (fun s => s.err) = some true := by decide

/-- BUILD, EXTRACT, PACK and DESER complete; the flags are clear at reset. -/
theorem witness_ValidityFlagsFollowTheirProducers :
    (stateAfter (exec .build sample)).map (fun s => s.tv && !s.err) = some true ∧
      (stateAfter (exec .extract sample)).map (fun s => s.cv && !s.err) = some true ∧
      (stateAfter (exec .pack sample)).map (fun s => s.pv && !s.err) = some true ∧
      (stateAfter (exec .deser { State.reset with inbuf := [0, 0, 0] })).map (fun s => s.tv && s.cv && s.pv && !s.err) =
        some true ∧
      State.reset.err = false ∧ State.reset.tv = false ∧ State.reset.cv = false ∧ State.reset.pv = false ∧
      ({ State.reset with cv := true } : State).pv = false := by decide

/-- Each root kind, an empty and a non-empty table, the first and the last reserved index, with ERR = 0 and ERR = 1. -/
theorem witness_RdregReportsTheRegisterMap :
    State.reset.tree = .null ∧ State.reset.ctab = [] ∧ sample.tree = .node (.node (.leaf 0x44) (.leaf 0x43)) (.node (.leaf 0x42) (.leaf 0x41)) ∧ sample.ctab ≠ [] ∧
      ({ State.reset with tree := .leaf 0xFF } : State).tree = .leaf 0xFF ∧ 11 ≤ (11 : Byte).toNat ∧
      11 ≤ (255 : Byte).toNat ∧ sample.err = false ∧ errState.err = true :=
  ⟨rfl, rfl, rfl, by decide, rfl, by decide, by decide, rfl, rfl⟩

theorem witness_RegisterCountsAreExact : BlockInv sample ∧ BlockInv errState := ⟨sample_inv, errState_inv⟩

/-! ### Witnesses: SYMPUSH, BUILD, EXTRACT -/

/-- All 256 symbols with frequency 1 (B14). -/
def symlist256 : List SymEntry := (List.range 256).map fun n => ⟨BitVec.ofNat 8 n, 1⟩

theorem symlist256_ok : SymlistOk symlist256 where
  distinct := by
    have h : symlist256.map (fun e => e.sym) = (List.range 256).map (fun n => BitVec.ofNat 8 n) := by
      rw [symlist256, List.map_map]
      rfl
    rw [h]
    refine List.Nodup.map_on (fun a ha b hb hab => ?_) List.nodup_range
    have h2 := congrArg BitVec.toNat hab
    rw [List.mem_range] at ha hb
    rwa [BitVec.toNat_ofNat, BitVec.toNat_ofNat, Nat.mod_eq_of_lt ha, Nat.mod_eq_of_lt hb] at h2
  sorted := by
    rw [symlist256, List.pairwise_map]
    exact List.Pairwise.imp (fun _ => le_rfl) List.nodup_range
  count := by simp [symlist256]

/-- A known symbol; a new symbol above the last frequency; one equal to it; the first push; the 257th push. -/
theorem witness_SympushFollowsItsRule :
    errState.err = true ∧ sample.err = false ∧ (∃ e ∈ sample.symlist, e.sym = 0x44) ∧
      (¬ ∃ e ∈ sample.symlist, e.sym = 0x45) ∧
      (∃ e, sample.symlist.getLast? = some e ∧ e.freq.toNat < (11 : Freq).toNat) ∧
      (∀ e, sample.symlist.getLast? = some e → (10 : Freq).toNat ≤ e.freq.toNat) ∧
      (∀ e, State.reset.symlist.getLast? = some e → (0xFFFFFFFF : Freq).toNat ≤ e.freq.toNat) ∧
      SymlistOk symlist256 ∧ symlist256.length = 256 := by
  refine ⟨rfl, rfl, by decide, by decide, ⟨⟨0x41, 10⟩, by decide, by decide⟩, ?_, ?_, symlist256_ok, by
    simp [symlist256]⟩
  · intro e h
    obtain rfl : (⟨0x41, 10⟩ : SymEntry) = e := Option.some.inj h
    decide
  · intro e h
    cases h

/-- B6, with an index below the split index 1. -/
theorem witness_SplitIsAtTheFirstHalfTotal :
    ([⟨1, 37⟩, ⟨2, 20⟩, ⟨3, 18⟩] : List SymEntry) ≠ [] ∧
      0 < splitIndex [⟨1, 37⟩, ⟨2, 20⟩, ⟨3, 18⟩] := by decide

theorem witness_BuildFollowsItsThreeCases :
    (symlist4.Pairwise fun a b => b.freq.toNat ≤ a.freq.toNat) ∧ 2 ≤ symlist4.length := by decide

theorem witness_BuildWritesTheTreeOfSymlist :
    errState.err = true ∧ sample.err = false ∧ SymlistOk sample.symlist ∧ SymlistOk symlist256 ∧
      SymlistOk State.reset.symlist :=
  ⟨rfl, rfl, sample_symlistOk, symlist256_ok, ⟨by decide, by decide, by decide⟩⟩

/-- One symbol and four symbols. -/
theorem witness_BuiltTreeHasOneLeafPerSymbol :
    (symlist4.Pairwise fun a b => b.freq.toNat ≤ a.freq.toNat) ∧ symlist4 ≠ [] ∧ build symlist4 = some tree4 ∧
      2 ≤ symlist4.length ∧ build [⟨0x61, 3⟩] = some (.leaf 0x61) := by decide

theorem witness_ExtractWritesTheTableOfTree :
    errState.err = true ∧ State.reset.err = false ∧ State.reset.tv = false ∧ sample.tv = true := by decide

theorem witness_ExtractListsLeavesWithTheirPaths : ⟨0x42, [true, false]⟩ ∈ extract tree4 := by decide

theorem witness_ExtractedTableIsPrefixFree : TreeOk tree4 ∧ TreeOk .null ∧ TreeOk (.leaf 0) :=
  ⟨sample_treeOk, ⟨by decide, by decide⟩, ⟨by decide, by decide⟩⟩

/-! ### Witnesses: PACK, UNPACK, BITCLR -/

/-- The first and the last bit of the packed bytes of the sample. -/
theorem witness_PackFollowsItsRule :
    errState.err = true ∧ sample.err = false ∧ 0 < 8 ∧ 7 < 8 ∧ (packBytes sample.bitseq)[0]? = some 0xE4 ∧
      (packBytes sample.bitseq)[1]? = some 0x00 := by decide

/-- Every check of UNPACK at its boundary: PAD one above and equal to the bit length; BIT_CAP one below and equal. -/
theorem witness_UnpackFollowsItsRule :
    State.reset.err = false ∧ State.reset.pv = false ∧
      (8 * ({ sample with packbuf := [0xAB], pad := 9 } : State).packbuf.length < (9 : Byte).toNat) ∧
      ((8 : Byte).toNat ≤ 8 * ({ sample with packbuf := [0xAB] } : State).packbuf.length) ∧
      ({ sample with cfg := { inCap := 3, outCap := 3, bitCap := 7 } } : State).cfg.bitCap <
        8 * sample.packbuf.length - sample.pad.toNat ∧
      8 * sample.packbuf.length - sample.pad.toNat ≤
        ({ sample with cfg := { inCap := 3, outCap := 3, bitCap := 8 } } : State).cfg.bitCap ∧
      (unpackBits sample.packbuf sample.pad.toNat)[7]? = some false := by decide

theorem witness_BitclrEmptiesBitseq : errState.err = true ∧ sample.err = false := by decide

/-- The longest and the empty sequence. -/
theorem witness_UnpackInvertsPack :
    sample.err = false ∧ ({ sample with bitseq := List.replicate 255 true, cfg := smallest } : State).bitseq.length ≤
      smallest.bitCap ∧ State.reset.bitseq.length ≤ State.reset.cfg.bitCap :=
  ⟨rfl, le_of_eq List.length_replicate, by decide⟩

/-- The largest value of two bytes and of ten bits. -/
theorem witness_ConversionsInvertEachOther : 65535 < 256 ^ 2 ∧ 1023 < 2 ^ 10 ∧ 0 < 256 ^ 0 := by decide

/-! ### Witnesses: SER, DESER, INPUSH, OUTPOP -/

theorem witness_SerWritesTheContainer :
    sample.err = false ∧ sample.cv = true ∧ sample.pv = true ∧ sample.ctab ≠ [] ∧ sample.ctab.length ≤ 65535 ∧
      1 ≤ sample.pad.toNat ∧ sample.pad.toNat ≤ 8 ∧
      (∀ e ∈ sample.ctab, 1 ≤ e.code.length ∧ e.code.length ≤ 255) ∧
      3 + (sample.ctab.map fun e => 2 + (e.code.length + 7) / 8).sum + sample.packbuf.length ≤
        ({ sample with cfg := { smallest with outCap := 17 } } : State).cfg.outCap := by decide

/-- Each check of SER: no table; no packed buffer; an empty table with bits; PAD 0 and PAD 9; a code of no bits; OUT one
byte short and just large enough; the empty container in the smallest OUT. -/
theorem witness_SerChecksInOrder :
    errState.err = true ∧ State.reset.err = false ∧ State.reset.cv = false ∧
      ({ sample with pv := false } : State).cv = true ∧
      8 * ({ sample with ctab := [], pad := 1 } : State).packbuf.length ≠ (1 : Byte).toNat ∧
      ({ sample with pad := 0 } : State).pad.toNat < 1 ∧ 8 < ({ sample with pad := 9 } : State).pad.toNat ∧
      (∃ e ∈ ({ sample with ctab := [⟨0, []⟩] } : State).ctab, e.code.length < 1 ∨ 255 < e.code.length) ∧
      (serialize sample.ctab sample.packbuf sample.pad).toOption = some blob4 ∧
      ({ smallest with outCap := 16 } : Config).outCap < blob4.length ∧
      blob4.length ≤ ({ smallest with outCap := 17 } : Config).outCap ∧
      8 * ([0x00] : List Byte).length = (8 : Byte).toNat ∧ 3 ≤ smallest.outCap := by decide

theorem witness_BlobSizeFollowsTheFormula :
    (serialize table4 [0xE4, 0x00] 8).toOption = some blob4 ∧
      (serialize [] [0x00] 8).toOption = some [0, 0, 0] := by decide

/-- IN one byte short of full, and full. -/
theorem witness_InpushFollowsItsRule :
    errState.err = true ∧ sample.err = false ∧
      ({ sample with cfg := smallest, inbuf := [0, 0, 0] } : State).cfg.inCap < [0, 0, 0].length + 1 ∧
      [0, 0].length + 1 ≤ ({ sample with cfg := smallest, inbuf := [0, 0] } : State).cfg.inCap := by decide

theorem witness_DeserCommitsOrFails :
    errState.err = true ∧ sample.err = false ∧ parseContainer sample.inbuf = .error .truncHeader ∧
      parseContainer ({ sample with inbuf := blob4 } : State).inbuf = .ok (table4, tree4, [0xE4, 0x00], 8) :=
  ⟨rfl, rfl, rfl, by rfl⟩

/-- The header checks at their boundaries: 2 bytes; count 0 with PAD 1 or a byte after it; count 257 and 65535; PAD 0
and 9 with count 1 and 256; a failing and a passing entry. -/
theorem witness_DeserChecksTheHeaderInOrder :
    ([0x00, 0x04] : List Byte).length < 3 ∧ (1 : Byte) ≠ 0 ∧ ([0x00] : List Byte) ≠ [] ∧
      256 < 256 * (1 : Byte).toNat + (1 : Byte).toNat ∧ 256 < 256 * (0xFF : Byte).toNat + (0xFF : Byte).toNat ∧
      256 * (1 : Byte).toNat + (0 : Byte).toNat ≤ 256 ∧ 1 ≤ 256 * (0 : Byte).toNat + (1 : Byte).toNat ∧
      (0 : Byte).toNat < 1 ∧ 8 < (9 : Byte).toNat ∧ 1 ≤ (1 : Byte).toNat ∧ (8 : Byte).toNat ≤ 8 ∧
      parseEntries 1 [0x44, 0x00] [] (.node .null .null) = .error .zeroLen ∧
      parseEntries 1 [0x61, 0x01, 0x00, 0x00] [] (.node .null .null) =
        .ok ([⟨0x61, [false]⟩], .node (.leaf 0x61) .null, [0x00]) := by
  refine ⟨by decide, by decide, by decide, by decide, by decide, by decide, by decide, by decide, by decide, by decide,
    by decide, rfl, rfl⟩

/-- One entry: one byte; length 0; length 255 with 31 of its 32 bytes; the value 2 in one bit, and 1; a known symbol; a
code that is taken, and one that is free. -/
theorem witness_DeserChecksAnEntryInOrder :
    ([0x44] : List Byte).length < 2 ∧ (0 : Byte).toNat = 0 ∧ (255 : Byte).toNat ≠ 0 ∧
      (List.replicate 31 (0 : Byte)).length < ((255 : Byte).toNat + 7) / 8 ∧
      2 ^ (1 : Byte).toNat ≤ unBE (([0x02] : List Byte).take 1) ∧
      ((1 : Byte).toNat + 7) / 8 ≤ ([0x01] : List Byte).length ∧ ([true] : Bits).length = (1 : Byte).toNat ∧
      val [true] = unBE (([0x01] : List Byte).take 1) ∧ (∃ e ∈ table4, e.sym = 0x44) ∧
      (¬ ∃ e ∈ table4, e.sym = 0x45) ∧ insertPath tree4 [true] 0x45 = none ∧
      insertPath (.node (.leaf 0x44) .null) [true] 0x45 = some (.node (.leaf 0x44) (.leaf 0x45)) := by decide

/-- Every case of the insertion: the child on the bit null, a leaf and a node, with and without more bits. -/
theorem witness_InsertFollowsItsRule :
    CodeTree.null = child true (.node (.leaf 1) .null) ∧ CodeTree.leaf 1 = child false (.node (.leaf 1) .null) ∧
      CodeTree.leaf 1 ≠ .null ∧ CodeTree.node (.leaf 0x42) (.leaf 0x41) = child true tree4 ∧ ([true] : Bits) ≠ [] ∧
      table4 ≠ [] ∧ TableOk table4 :=
  ⟨rfl, rfl, by decide, rfl, by decide, by decide, sample_tableOk⟩

theorem witness_InsertConflictsExactlyOnPrefixes :
    table4 ≠ [] ∧ (∀ e ∈ table4, e.code ≠ []) ∧ ([true] : Bits) ≠ [] ∧ decodeTree table4 = some tree4 := by decide

theorem witness_ParsedTreeIsTheDecodeTree :
    parseContainer blob4 = .ok (table4, tree4, [0xE4, 0x00], 8) ∧
      parseContainer [0x00, 0x01, 0x05, 0x61, 0x01, 0x00, 0x00] =
        .ok ([⟨0x61, [false]⟩], .node (.leaf 0x61) .null, [0x00], 5) :=
  ⟨by rfl, by rfl⟩

/-- The first byte of OUT, the last one, and the end. -/
theorem witness_OutpopFollowsItsRule :
    errState.err = true ∧ sample.err = false ∧ sample.outbuf[0]? = some 0x00 ∧
      sample.outbuf[({ sample with outpos := 16 } : State).outpos.toNat]? = some 0x00 ∧
      sample.outbuf.length ≤ ({ sample with outpos := 17 } : State).outpos.toNat := by decide

theorem witness_DrainReturnsTheRestOfOut :
    BlockInv sample ∧ sample.err = false ∧ BlockInv errState ∧ errState.err = true := ⟨sample_inv, rfl, errState_inv, rfl⟩

/-! ### Witnesses: ENC, DEC -/

/-- Every check of ENC; BIT_CAP one bit short of the code and just large enough. -/
theorem witness_EncFollowsItsRule :
    errState.err = true ∧ State.reset.err = false ∧ State.reset.cv = false ∧ sample.cv = true ∧
      (¬ ∃ e ∈ sample.ctab, e.sym = 0x45) ∧ (sample.ctab.map fun x => x.sym).Nodup ∧
      ⟨0x41, [true, true]⟩ ∈ sample.ctab ∧
      ({ smallest with bitCap := 9 } : Config).bitCap < sample.bitseq.length + ([true, true] : Bits).length ∧
      sample.bitseq.length + ([true, true] : Bits).length ≤ ({ smallest with bitCap := 10 } : Config).bitCap := by decide

theorem witness_EncodingAStringAppendsItsCodes :
    sample.err = false ∧ sample.cv = true ∧
      (∀ b ∈ ([0x41, 0x42, 0x43, 0x44] : List Byte), b ∈ sample.ctab.map fun e => e.sym) ∧
      sample.bitseq.length + (encodeAll sample.ctab [0x41, 0x42, 0x43, 0x44]).length ≤ sample.cfg.bitCap := by decide

/-- Every check of DEC: a stream that decodes, one that ends inside a code, OUT one byte short and just large enough. -/
theorem witness_DecFollowsItsRule :
    errState.err = true ∧ State.reset.err = false ∧ State.reset.cv = false ∧ sample.cv = true ∧ TableOk sample.ctab ∧
      decodeBits tree4 sample.bitseq = .ok [0x41, 0x42, 0x43, 0x44] ∧
      decodeBits tree4 [true] = .error .streamEndMidPath ∧ smallest.outCap < [0x41, 0x42, 0x43, 0x44].length ∧
      [0x41, 0x42, 0x43, 0x44].length ≤ ({ smallest with outCap := 4 } : Config).outCap :=
  ⟨rfl, rfl, rfl, rfl, sample_tableOk, rfl, rfl, by decide, by decide⟩

/-- A path to a leaf with a good and a bad rest, a null child at the root and below it, a path that ends inside. -/
theorem witness_DecodeWalksTheTree :
    ([true] : Bits) ≠ [] ∧ follow tree4 [true, false] = .leaf 0x42 ∧ decodeBits tree4 [] = .ok [] ∧
      decodeBits tree4 [false] = .error .streamEndMidPath ∧ follow tree4 [true] = .node (.leaf 0x42) (.leaf 0x41) ∧
      follow (.node (.leaf 0x61) .null) [] = .node (.leaf 0x61) .null ∧
      child true (.node (.leaf 0x61) .null) = .null ∧
      follow (.node (.node .null (.leaf 1)) .null) [false] = .node .null (.leaf 1) ∧
      child false (.node .null (.leaf 1)) = .null :=
  ⟨by decide, rfl, rfl, rfl, rfl, rfl, rfl, rfl, rfl⟩

theorem witness_DecodingInvertsEncoding :
    TableOk table4 ∧ ∀ b ∈ ([0x41, 0x41, 0x44] : List Byte), b ∈ table4.map fun e => e.sym :=
  ⟨sample_tableOk, by decide⟩

/-! ### Witnesses: round trips -/

theorem witness_ContainerRoundTrip :
    TableOk table4 ∧ (8 : Byte).toNat ≤ 8 * ([0xE4, 0x00] : List Byte).length ∧
      serialize table4 [0xE4, 0x00] 8 = .ok blob4 ∧ TableOk [] ∧ serialize [] [0x00] 8 = .ok [0, 0, 0] :=
  ⟨sample_tableOk, by decide, by rfl, ⟨by decide, by decide, List.Pairwise.nil, by decide⟩, rfl⟩

theorem witness_DecodeTreeOfABuiltTreeIsTheTree :
    Full (.node (.node (.leaf 0x44) (.leaf 0x43)) (.node (.leaf 0x42) (.leaf 0x41))) := by simp [Full]

theorem witness_ExtractOfADecodeTreeGivesTheTable : TableOk table4 ∧ decodeTree table4 = some tree4 :=
  ⟨sample_tableOk, by decide⟩

/-- The first and the last cut. -/
theorem witness_TruncatedTableRegionIsMalformed :
    TableOk table4 ∧ table4 ≠ [] ∧ serialize table4 [0xE4, 0x00] 8 = .ok blob4 ∧ 0 < 3 + tableLength table4 ∧
      14 < 3 + tableLength table4 :=
  ⟨sample_tableOk, by decide, by rfl, by decide, by decide⟩

/-- The scenario on capacities just large enough, and the empty input on the smallest block. -/
theorem witness_DecompressInvertsCompress :
    Config.Legal { inCap := 17, outCap := 17, bitCap := 255 } ∧ SymlistOk symlist4 ∧ build symlist4 = some tree4 ∧
      (∀ b ∈ ([0x41, 0x42, 0x43, 0x44] : List Byte), b ∈ symlist4.map fun e => e.sym) ∧
      (encodeAll (extract tree4) [0x41, 0x42, 0x43, 0x44]).length ≤ 255 ∧
      blobLength (extract tree4) (packBytes (encodeAll (extract tree4) [0x41, 0x42, 0x43, 0x44])) ≤ 17 ∧
      ([0x41, 0x42, 0x43, 0x44] : List Byte).length ≤ 17 ∧ smallest.Legal ∧ SymlistOk [] ∧ build [] = some .null ∧
      blobLength (extract .null) (packBytes (encodeAll (extract .null) [])) ≤ 3 :=
  ⟨by decide, sample_symlistOk, by decide, by decide, by decide, by decide, by decide, by decide,
    ⟨by decide, by decide, by decide⟩, by decide, by decide⟩

end Sys2Proof.Tests
end

/-! ## Family 10_state: the laws its statements share -/

namespace Sys2Proof

/-- The must-be-zero test of R73 on the word as a number. -/
theorem fieldsZero_iff (useA useF : Bool) (w : Word) :
    fieldsZero useA useF w = true ↔ w.toNat / 2 ^ 32 % 2 ^ 16 = 0 ∧ (useA = true ∨ w.toNat / 2 ^ 48 % 2 ^ 8 = 0) ∧
      (useF = true ∨ w.toNat % 2 ^ 32 = 0) := by
  rw [← rsvField_toNat, ← aField_toNat, ← fField_toNat]
  simp [fieldsZero, ← BitVec.toNat_inj, and_assoc]

theorem decode_of_badFields {w : Word} {useA useF : Bool} {i : Instr}
    (hrow : opRow (opField w) (aField w) (fField w) = some (useA, useF, i))
    (hbad : fieldsZero useA useF w = false) : decode w = .error .reservedField := by
  simp [decode, hrow, hbad]

end Sys2Proof

namespace Sys2Proof.Machine

section
variable {s t u : State} {i : Instr}

theorem step_of_reject {w : Word} {rest : List HostEvent} {r : Reject} (he : s.events = .command w :: rest)
    (hd : decode w = .error r) : step s = raise (rejectCause r) { s with events := rest } := by
  rw [step_of_command he, stepCommand, hd]
  rfl

/-- An opcode in the map rejects every word with a must-be-zero field that is not zero (R73, R75). -/
theorem rejectsBadFields_of_row {op : Nat} {useA useF : Bool}
    (hrow : ∀ (o a : Byte) (f : Freq), o.toNat = op → ∃ i, opRow o a f = some (useA, useF, i)) :
    RejectsBadFields op useA useF := by
  intro s w rest he hop hbad
  obtain ⟨i, hi⟩ := hrow (opField w) (aField w) (fField w) (by rw [opField_toNat, hop])
  have hz : fieldsZero useA useF w = false := by
    rw [← Bool.not_eq_true, fieldsZero_iff]
    rintro ⟨hrsv, ha, hf⟩
    rcases hbad with h | ⟨hA, h⟩ | ⟨hF, h⟩
    · exact h hrsv
    · exact h (ha.resolve_left (by simp [hA]))
    · exact h (hf.resolve_left (by simp [hF]))
  have hstep := step_of_reject he (decode_of_badFields hi hz)
  exact ⟨fun h => hstep.trans (raise_of_clear (s := { s with events := rest }) h _),
    fun h => hstep.trans (raise_of_err (s := { s with events := rest }) h _)⟩

/-- Everything a command that has a next state can do, for both values of ERR: complete with the effect of its rule, be
dropped, or fail with one of its causes. -/
theorem exec_next_cases (h : exec i s = .next t) :
    (∃ u v d, Effect i s u ∧ t = u.answered v d) ∨ (s.err = true ∧ t = s.answered false 0) ∨
      (s.err = false ∧ ∃ c ∈ possibleCauses i, t = s.failed c) := by
  rcases he : s.err with _ | _
  · rcases exec_of_clear he i with ⟨c, hc, hx⟩ | ⟨u, v, d, hu, -, hx⟩ | ⟨-, -, hx⟩ | ⟨-, -, -, hx⟩ <;>
      rw [hx] at h <;> cases h
    · exact .inr (.inr ⟨rfl, c, hc, rfl⟩)
    · exact .inl ⟨u, v, d, hu, rfl⟩
  · by_cases hn : i = .nop
    · subst hn
      cases h
      exact .inl ⟨s, false, 0, rfl, rfl⟩
    by_cases hc : i = .clear
    · subst hc
      cases h
      exact .inl ⟨s.clearAll, false, 0, rfl, rfl⟩
    by_cases hr : ∀ index : Byte, i = .rdreg index → 10 < index.toNat
    · rw [exec_of_err he i hn hc hr] at h
      cases h
      exact .inr (.inl ⟨rfl, rfl⟩)
    · obtain ⟨index, rfl, hle⟩ : ∃ index : Byte, i = .rdreg index ∧ index.toNat ≤ 10 := by simpa using hr
      obtain ⟨v, hv⟩ := Option.isSome_iff_exists.1 ((regValue_isSome_iff s index).2 hle)
      simp only [exec, execRdreg, hv, respond_eq] at h
      cases h
      exact .inl ⟨s, true, v, ⟨hle, rfl⟩, rfl⟩

/-! ### The validity flags (R30) -/

/-- The flags after a command that completes: CLEAR leaves none set, every other command those set before and its own. -/
def FlagsFollow (i : Instr) (s t : State) : Prop :=
  (t.tv = true ↔ i ≠ .clear ∧ (s.tv = true ∨ i = .build ∨ i = .deser)) ∧
  (t.cv = true ↔ i ≠ .clear ∧ (s.cv = true ∨ i = .extract ∨ i = .deser)) ∧
  (t.pv = true ↔ i ≠ .clear ∧ (s.pv = true ∨ i = .pack ∨ i = .deser))

theorem Effect.flagsFollow (h : Effect i s u) : FlagsFollow i s u := by
  cases i with
  | nop => obtain rfl := h; simp [FlagsFollow]
  | clear => obtain rfl := h; simp [FlagsFollow]
  | rdreg index => obtain ⟨-, rfl⟩ := h; simp [FlagsFollow]
  | sympush sym freq => obtain ⟨-, -, rfl⟩ := h; simp [FlagsFollow]
  | build => obtain ⟨x, -, rfl⟩ := h; simp [FlagsFollow]
  | extract => obtain ⟨-, rfl⟩ := h; simp [FlagsFollow]
  | pack => obtain rfl := h; simp [FlagsFollow]
  | unpack => obtain ⟨-, -, -, rfl⟩ := h; simp [FlagsFollow]
  | bitclr => obtain rfl := h; simp [FlagsFollow]
  | ser => obtain ⟨-, -, blob, -, -, rfl⟩ := h; simp [FlagsFollow]
  | deser => obtain ⟨ct, x, P, p, -, rfl⟩ := h; simp [FlagsFollow]
  | inpush b => obtain ⟨-, rfl⟩ := h; simp [FlagsFollow]
  | outpop => obtain ⟨b, -, rfl⟩ | ⟨-, rfl⟩ := h <;> simp [FlagsFollow]
  | enc sym => obtain ⟨-, c, -, -, rfl⟩ := h; simp [FlagsFollow]
  | dec => obtain ⟨-, D, out, -, -, -, rfl⟩ := h; simp [FlagsFollow]

/-- A dropped or failing command leaves the flags alone, and its next state has ERR = 1. -/
theorem exec_flags (h : exec i s = .next t) :
    FlagsFollow i s t ∨ (t.err = true ∧ t.tv = s.tv ∧ t.cv = s.cv ∧ t.pv = s.pv) := by
  rcases exec_next_cases h with ⟨u, v, d, hu, rfl⟩ | ⟨he, rfl⟩ | ⟨-, c, -, rfl⟩
  · exact .inl hu.flagsFollow
  · exact .inr ⟨he, rfl, rfl, rfl⟩
  · exact .inr ⟨rfl, rfl, rfl, rfl⟩

end

/-- Settles O21: the flags by `exec_flags`, the missing-flag causes by the first failing check of each command. -/
theorem validityFlagsFollowTheirProducers : Obligations.ValidityFlagsFollowTheirProducers := by
  refine ⟨fun i s t h => ?_, fun s he => ⟨fun ht => ?_, fun hc => ⟨fun sym => ?_, ?_, ?_⟩, fun hp => ⟨?_, fun hc => ?_⟩⟩⟩
  · rcases exec_flags h with ⟨htv, hcv, hpv⟩ | ⟨herr, htv, hcv, hpv⟩
    · have hprod {j : Instr} (hj : j ≠ .clear) : i = j ∨ i = .deser → i ≠ .clear := by
        rintro (rfl | rfl)
        · exact hj
        · decide
      exact ⟨fun h => (htv.1 h).2, fun h => (hcv.1 h).2, fun h => (hpv.1 h).2,
        fun hn => ⟨fun h => htv.2 ⟨hn, .inl h⟩, fun h => hcv.2 ⟨hn, .inl h⟩, fun h => hpv.2 ⟨hn, .inl h⟩⟩,
        fun _ => ⟨fun h => htv.2 ⟨hprod (by decide) h, .inr h⟩, fun h => hcv.2 ⟨hprod (by decide) h, .inr h⟩,
          fun h => hpv.2 ⟨hprod (by decide) h, .inr h⟩⟩⟩
    · rw [htv, hcv, hpv, herr]
      exact ⟨.inl, .inl, .inl, fun _ => ⟨id, id, id⟩, fun h => nomatch h⟩
  · simp [exec, execExtract, unlessErr_of_clear, raise_of_clear, he, ht]
  · simp [exec, execEnc, unlessErr_of_clear, raise_of_clear, he, hc]
  · simp [exec, execDec, unlessErr_of_clear, raise_of_clear, he, hc]
  · simp [exec, execSer, unlessErr_of_clear, raise_of_clear, he, hc]
  · simp [exec, execUnpack, unlessErr_of_clear, raise_of_clear, he, hp]
  · simp [exec, execSer, unlessErr_of_clear, raise_of_clear, he, hc, hp]

/-! ### The register map (R31, R177) -/

section
variable {s : State} {index : Byte}

theorem exec_rdreg_of_value {v : Data} (h : regValue s index = some v) :
    exec (.rdreg index) s = .next (s.answered true v) := by
  simp [exec, execRdreg, h, respond_eq]

theorem exec_rdreg_reserved (h : 11 ≤ index.toNat) : exec (.rdreg index) s = raise .badRegIndex s := by
  have hx : regValue s index = none := by
    rw [← Option.not_isSome_iff_eq_none, regValue_isSome_iff]
    omega
  simp [exec, execRdreg, hx]

theorem treeInfo_toNat (t : CodeTree) : (treeInfo t).toNat =
    (leaves t).length % 2 ^ 16 * 2 ^ 16 + (rootSym t).toNat * 2 ^ 8 + (rootKind t).toNat := by
  rw [treeInfo, toNat_append_lt, toNat_append_lt, toNat_append_lt, BitVec.toNat_ofNat, BitVec.toNat_ofNat]
  omega

theorem treeInfo_leaf (a : Byte) : treeInfo (.leaf a) = BitVec.ofNat 32 (1 + 2 ^ 8 * a.toNat + 2 ^ 16) := by
  apply BitVec.eq_of_toNat_eq
  rw [treeInfo_toNat, BitVec.toNat_ofNat, show (rootKind (.leaf a)).toNat = 1 from rfl]
  simp only [leaves, rootSym, List.length_singleton]
  omega

theorem treeInfo_node (l r : CodeTree) :
    treeInfo (.node l r) = BitVec.ofNat 32 (2 + 2 ^ 16 * (leaves (.node l r)).length) := by
  apply BitVec.eq_of_toNat_eq
  rw [treeInfo_toNat, BitVec.toNat_ofNat, show (rootKind (.node l r)).toNat = 2 from rfl,
    show (rootSym (.node l r)).toNat = 0 from rfl]
  omega

theorem length_le_maxLen {ct : List CodeEntry} {e : CodeEntry} (he : e ∈ ct) : e.code.length ≤ maxLen ct := by
  induction ct with
  | nil => cases he
  | cons x xs ih =>
    rcases List.mem_cons.1 he with rfl | hm
    · exact le_max_left _ _
    · exact (ih hm).trans (le_max_right _ _)

theorem exists_length_eq_maxLen {ct : List CodeEntry} (hne : ct ≠ []) : ∃ e ∈ ct, e.code.length = maxLen ct := by
  induction ct with
  | nil => exact absurd rfl hne
  | cons x xs ih =>
    rcases le_total (maxLen xs) x.code.length with hx | hx
    · exact ⟨x, List.mem_cons_self, (max_eq_left hx).symm⟩
    · by_cases hxs : xs = []
      · subst hxs
        exact ⟨x, List.mem_cons_self, (max_eq_left (Nat.zero_le _)).symm⟩
      · obtain ⟨e, hm, he⟩ := ih hxs
        exact ⟨e, List.mem_cons_of_mem _ hm, he.trans (max_eq_right hx).symm⟩

end

/-- Settles O23: one register after another, each the value `regValue` gives. -/
theorem rdregReportsTheRegisterMap : Obligations.RdregReportsTheRegisterMap := by
  have hpad (s : State) : regValue s 5 = some (BitVec.ofNat 32 s.pad.toNat) :=
    congrArg some (BitVec.ofNat_toNat 32 s.pad).symm
  refine ⟨rejectsBadFields_of_row fun o a f h => ⟨.rdreg a, by simp [opRow, h]⟩, fun s => ⟨fun index => ?_,
    exec_rdreg_of_value rfl, exec_rdreg_of_value rfl, exec_rdreg_of_value rfl, exec_rdreg_of_value rfl,
    exec_rdreg_of_value rfl, exec_rdreg_of_value (hpad s), exec_rdreg_of_value rfl, exec_rdreg_of_value rfl,
    exec_rdreg_of_value rfl, fun ht => ?_, fun a ht => ?_, fun l r ht => ?_,
    ⟨maxLen s.ctab, exec_rdreg_of_value rfl, fun e => length_le_maxLen, fun h => by rw [h, maxLen],
      exists_length_eq_maxLen⟩,
    fun index hi => ⟨fun he => ?_, fun he => ?_⟩⟩⟩
  · simp [encode, opcode, aOperand, fOperand, wordOf_toNat]
  · exact exec_rdreg_of_value (congrArg (fun t => some (treeInfo t)) ht)
  · exact exec_rdreg_of_value (congrArg some ((congrArg treeInfo ht).trans (treeInfo_leaf a)))
  · rw [ht]
    exact exec_rdreg_of_value (congrArg some ((congrArg treeInfo ht).trans (treeInfo_node l r)))
  · rw [exec_rdreg_reserved hi, raise_of_clear he]
    rfl
  · rw [exec_rdreg_reserved hi, raise_of_err he]

/-! ### Reset and STATUS (R36, R21) -/

/-- Settles O1: the reset state is a literal. -/
theorem resetValuesAreZeroAndEmpty : Obligations.ResetValuesAreZeroAndEmpty := by
  unfold Obligations.ResetValuesAreZeroAndEmpty
  decide

/-- STATUS as the number of its fields (R21). -/
theorem statusWord_toNat (s : State) : (statusWord s).toNat =
    s.err.toNat + 2 * s.eclass.toNat + 2 ^ 4 * s.ecause.toNat + 2 ^ 12 * s.tv.toNat + 2 ^ 13 * s.cv.toNat +
      2 ^ 14 * s.pv.toNat := by
  simp only [statusWord, toNat_append_lt, BitVec.toNat_ofBool, BitVec.toNat_ofNat]
  omega

/-- Settles O16, by `statusWord_toNat`. -/
theorem statusHoldsItsFields : Obligations.StatusHoldsItsFields := statusWord_toNat

end Sys2Proof.Machine

/-! ## Family 30_encoding: the laws its statements share -/

namespace Sys2Proof

section
variable {op a : Byte} {f : Freq} {useA useF : Bool} {i : Instr} {w : Word}

/-! ### The rows of the opcode map (R72) -/

/-- What the decoder's row of an opcode says: its command has that opcode, and A and F are operands exactly for the
opcodes that take them. -/
theorem opRow_eq_some (h : opRow op a f = some (useA, useF, i)) :
    opcode i = op ∧ useA = decide (op.toNat ∈ [0x02, 0x10, 0x32, 0x40]) ∧ useF = decide (op.toNat = 0x10) := by
  unfold opRow at h
  split at h <;> cases h
  all_goals
    next hop => exact ⟨BitVec.eq_of_toNat_eq hop.symm, by rw [hop]; rfl, by rw [hop]; rfl⟩

/-- The decoder knows exactly the fifteen opcodes of the map. -/
theorem opRow_isSome_iff (op a : Byte) (f : Freq) : (opRow op a f).isSome ↔
    op.toNat ∈ [0x00, 0x01, 0x02, 0x10, 0x11, 0x12, 0x20, 0x21, 0x22, 0x30, 0x31, 0x32, 0x33, 0x40, 0x41] := by
  unfold opRow
  split
  case h_16 => simp only [List.mem_cons, List.not_mem_nil, Option.isSome_none]; tauto
  all_goals next hop => rw [hop]; exact iff_of_true rfl (by decide)

/-- A word is a command exactly when its opcode has a row that makes the command and its must-be-zero fields are zero. -/
theorem decode_eq_ok_iff : decode w = .ok i ↔
    ∃ useA useF, opRow (opField w) (aField w) (fField w) = some (useA, useF, i) ∧ fieldsZero useA useF w = true := by
  unfold decode
  rcases opRow (opField w) (aField w) (fField w) with _ | ⟨uA, uF, j⟩
  · simp
  · simp only [Option.some.injEq, Prod.mk.injEq, ite_eq_iff, reduceCtorEq, and_false, or_false, Except.ok.injEq]
    constructor
    · rintro ⟨hz, rfl⟩
      exact ⟨uA, uF, ⟨rfl, rfl, rfl⟩, hz⟩
    · rintro ⟨_, _, ⟨rfl, rfl, rfl⟩, hz⟩
      exact ⟨hz, rfl⟩

/-! ### Match and mask (R72) -/

/-- Two words are equal exactly when their four fields are (R70). -/
theorem word_eq_iff (v w : Word) : v = w ↔
    opField v = opField w ∧ aField v = aField w ∧ rsvField v = rsvField w ∧ fField v = fField w := by
  refine ⟨fun h => h ▸ ⟨rfl, rfl, rfl, rfl⟩, fun ⟨hop, ha, hrsv, hf⟩ => BitVec.eq_of_toNat_eq ?_⟩
  rw [word_fields v, word_fields w, hop, ha, hrsv, hf]

theorem opField_and (v w : Word) : opField (v &&& w) = opField v &&& opField w := BitVec.extractLsb'_and

theorem aField_and (v w : Word) : aField (v &&& w) = aField v &&& aField w := BitVec.extractLsb'_and

theorem rsvField_and (v w : Word) : rsvField (v &&& w) = rsvField v &&& rsvField w := BitVec.extractLsb'_and

theorem fField_and (v w : Word) : fField (v &&& w) = fField v &&& fField w := BitVec.extractLsb'_and

/-- The mask of a row of the opcode map: all of OP and RSV, and A and F where they are no operand. -/
def fieldMask (useA useF : Bool) : Word :=
  BitVec.allOnes 8 ++ (if useA then 0#8 else BitVec.allOnes 8) ++ BitVec.allOnes 16 ++
    (if useF then 0#32 else BitVec.allOnes 32)

/-- The four fields of a mask. -/
theorem fields_fieldMask : ∀ useA useF : Bool,
    opField (fieldMask useA useF) = BitVec.allOnes 8 ∧
    aField (fieldMask useA useF) = (if useA then 0#8 else BitVec.allOnes 8) ∧
    rsvField (fieldMask useA useF) = BitVec.allOnes 16 ∧
    fField (fieldMask useA useF) = (if useF then 0#32 else BitVec.allOnes 32) := by decide

/-- A field under its part of the mask is zero exactly when it is an operand or zero. -/
theorem and_operandMask_eq_zero_iff {n : Nat} (use : Bool) (x : BitVec n) :
    x &&& (if use then 0#n else BitVec.allOnes n) = 0#n ↔ use = true ∨ x = 0#n := by
  cases use <;> simp

/-- A word is a row's match under the row's mask exactly when it has the row's opcode and its must-be-zero fields are
zero. -/
theorem and_fieldMask_eq_iff (op : Byte) (useA useF : Bool) (w : Word) :
    w &&& fieldMask useA useF = wordOf op 0 0 ↔ opField w = op ∧ fieldsZero useA useF w = true := by
  obtain ⟨hop, ha, hrsv, hf⟩ := fields_fieldMask useA useF
  rw [word_eq_iff, opField_and, aField_and, rsvField_and, fField_and, hop, ha, hrsv, hf, BitVec.and_allOnes,
    BitVec.and_allOnes, opField_wordOf, aField_wordOf, rsvField_wordOf, fField_wordOf]
  simp only [BitVec.ofNat_eq_ofNat, and_operandMask_eq_zero_iff, fieldsZero, Bool.and_eq_true, Bool.or_eq_true,
    beq_iff_eq]
  tauto

end

end Sys2Proof

namespace Sys2Proof.Machine

/-- A row of the opcode table agrees with the decoder's row of its opcode: the match is the opcode alone, the mask covers
the fields that are no operand, and the command is made of the operands. -/
def RowAgrees (r : Word × Word × (Byte → Freq → Instr)) : Prop :=
  ∃ op useA useF, r.1 = wordOf op 0 0 ∧ r.2.1 = fieldMask useA useF ∧
    ∀ a f, opRow op a f = some (useA, useF, r.2.2 a f)

theorem tableRows_agree : ∀ r ∈ tableRows, RowAgrees r := by
  simp only [tableRows, List.forall_mem_cons]
  exact ⟨⟨0x00, false, false, rfl, rfl, fun _ _ => rfl⟩, ⟨0x01, false, false, rfl, rfl, fun _ _ => rfl⟩,
    ⟨0x02, true, false, rfl, rfl, fun _ _ => rfl⟩, ⟨0x10, true, true, rfl, rfl, fun _ _ => rfl⟩,
    ⟨0x11, false, false, rfl, rfl, fun _ _ => rfl⟩, ⟨0x12, false, false, rfl, rfl, fun _ _ => rfl⟩,
    ⟨0x20, false, false, rfl, rfl, fun _ _ => rfl⟩, ⟨0x21, false, false, rfl, rfl, fun _ _ => rfl⟩,
    ⟨0x22, false, false, rfl, rfl, fun _ _ => rfl⟩, ⟨0x30, false, false, rfl, rfl, fun _ _ => rfl⟩,
    ⟨0x31, false, false, rfl, rfl, fun _ _ => rfl⟩, ⟨0x32, true, false, rfl, rfl, fun _ _ => rfl⟩,
    ⟨0x33, false, false, rfl, rfl, fun _ _ => rfl⟩, ⟨0x40, true, false, rfl, rfl, fun _ _ => rfl⟩,
    ⟨0x41, false, false, rfl, rfl, fun _ _ => rfl⟩, fun _ h => nomatch h⟩

/-- Every row the decoder reads is a row of the opcode table. -/
theorem exists_tableRow_of_opRow {op a : Byte} {f : Freq} {useA useF : Bool} {i : Instr}
    (h : opRow op a f = some (useA, useF, i)) : ∃ r ∈ tableRows, r.2.2 a f = i := by
  unfold opRow at h
  split at h <;> cases h <;> simp only [tableRows, List.exists_mem_cons_iff, true_or, or_true]

theorem RowAgrees.decode_iff {r : Word × Word × (Byte → Freq → Instr)} (hr : RowAgrees r) (w : Word) :
    decode w = .ok (r.2.2 (aField w) (fField w)) ↔ w &&& r.2.1 = r.1 := by
  obtain ⟨op, useA, useF, hmatch, hmask, hrow⟩ := hr
  rw [hmatch, hmask, and_fieldMask_eq_iff, decode_eq_ok_iff]
  constructor
  · rintro ⟨uA, uF, hw, hz⟩
    obtain ⟨hop, rfl, rfl⟩ := opRow_eq_some hw
    obtain ⟨hop', hA, hF⟩ := opRow_eq_some (hrow (aField w) (fField w))
    have heq : opField w = op := hop.symm.trans hop'
    exact ⟨heq, by rwa [hA, hF, ← heq]⟩
  · rintro ⟨rfl, hz⟩
    exact ⟨useA, useF, hrow _ _, hz⟩

/-- Settles O10: each row of the table agrees with the decoder's, and the decoder has no other rows. -/
theorem decodeFollowsMatchAndMask : Obligations.DecodeFollowsMatchAndMask := by
  refine ⟨fun r hr w => ?_, fun w i h => ?_, rfl⟩
  · have ha : BitVec.ofNat 8 (w.toNat / 2 ^ 48) = aField w :=
      BitVec.eq_of_toNat_eq (by rw [BitVec.toNat_ofNat, aField_toNat])
    have hf : BitVec.ofNat 32 w.toNat = fField w := BitVec.eq_of_toNat_eq (by rw [BitVec.toNat_ofNat, fField_toNat])
    rw [ha, hf]
    exact (tableRows_agree r hr).decode_iff w
  · obtain ⟨useA, useF, hrow, -⟩ := decode_eq_ok_iff.1 h
    obtain ⟨r, hr, rfl⟩ := exists_tableRow_of_opRow hrow
    exact ⟨r, hr, ((tableRows_agree r hr).decode_iff w).1 h⟩

/-! ### Words that are no command (R73) -/

/-- Settles O13: an opcode outside the map has no row, and an opcode of the map has one row for all its words. -/
theorem illegalWordsRaiseBadCommand : Obligations.IllegalWordsRaiseBadCommand := by
  refine fun s w rest he herr => ⟨fun hop => ?_, fun hop hbad => ?_⟩
  · have hnone : opRow (opField w) (aField w) (fField w) = none := by
      rw [← Option.not_isSome_iff_eq_none, opRow_isSome_iff, opField_toNat]
      simp only [List.mem_cons, List.not_mem_nil, or_false]
      omega
    have hd : decode w = .error .reservedOpcode := by rw [decode, hnone]
    rw [step_of_reject he hd]
    exact raise_of_clear (s := { s with events := rest }) herr _
  · have hrow (o a : Byte) (f : Freq) (ho : o.toNat = w.toNat / 2 ^ 56) : ∃ i, opRow o a f =
        some (decide (w.toNat / 2 ^ 56 ∈ [0x02, 0x10, 0x32, 0x40]), decide (w.toNat / 2 ^ 56 = 0x10), i) := by
      obtain ⟨⟨useA, useF, i⟩, hi⟩ := Option.isSome_iff_exists.1 ((opRow_isSome_iff o a f).2 (ho ▸ hop))
      obtain ⟨-, rfl, rfl⟩ := opRow_eq_some hi
      exact ⟨i, ho ▸ hi⟩
    refine (rejectsBadFields_of_row hrow s w rest he rfl ?_).1 herr
    simpa only [decide_eq_false_iff_not, and_comm] using hbad

/-! ### The response word and the one response of a command (R74) -/

section
variable {s u : State} {c : Cause} {r : Result} {ok : Bool}

/-- The response word as the number of its fields. -/
theorem responseWord_toNat (status : Status) (dvalid : Bool) (data : Data) :
    (responseWord status dvalid data).toNat = data.toNat + 2 ^ 32 * dvalid.toNat + 2 ^ 48 * status.toNat := by
  simp only [responseWord, toNat_append_lt, BitVec.toNat_ofBool, BitVec.toNat_ofNat]
  omega

/-- The host's side and the capacities are the same in both states. -/
def SameHost (s u : State) : Prop := u.events = s.events ∧ u.cfg = s.cfg ∧ u.responses = s.responses

/-- A next state has one response more, with DVALID = 0 and DATA = 0, and keeps the rest of the host's side. -/
def Silent (s : State) (r : Result) : Prop :=
  ∀ t, r = .next t → ∃ u, t = u.answered false 0 ∧ SameHost s u

theorem SameHost.succeed (h : SameHost s u) : Silent s (succeed u) := by
  rintro t ⟨⟩
  exact ⟨u, rfl, h⟩

theorem silent_drop (s : State) : Silent s (drop s) := SameHost.succeed ⟨rfl, rfl, rfl⟩

theorem silent_raise (c : Cause) (s : State) : Silent s (raise c s) := by
  unfold raise
  split
  · exact silent_drop s
  · exact SameHost.succeed (u := s.recordError c) ⟨rfl, rfl, rfl⟩

theorem silent_fault (s : State) (f : Fault) : Silent s (.fault f) := fun _ h => nomatch h

theorem Silent.unlessErr (h : Silent s r) : Silent s (unlessErr s r) := by
  unfold Machine.unlessErr
  split
  · exact silent_drop s
  · exact h

theorem Silent.require (h : Silent s r) : Silent s (require ok c s r) := by
  rcases require_cases ok c s r with ⟨-, hr⟩ | ⟨-, hr⟩ <;> rw [hr]
  · exact h
  · exact silent_raise c s

/-- Every command but RDREG and OUTPOP answers with DVALID = 0. -/
theorem silent_exec {i : Instr} (hr : ∀ index, i ≠ .rdreg index) (ho : i ≠ .outpop) (s : State) :
    Silent s (exec i s) := by
  have hkeep {u : State} (h : SameHost s u) : Silent s (succeed u) := h.succeed
  cases i with
  | nop => exact hkeep ⟨rfl, rfl, rfl⟩
  | clear => exact hkeep ⟨rfl, rfl, rfl⟩
  | rdreg index => exact absurd rfl (hr index)
  | sympush sym freq => exact .unlessErr (.require (.require (hkeep ⟨rfl, rfl, rfl⟩)))
  | build =>
    refine .unlessErr ?_
    split
    · exact silent_fault s _
    · exact hkeep ⟨rfl, rfl, rfl⟩
  | extract => exact .unlessErr (.require (hkeep ⟨rfl, rfl, rfl⟩))
  | pack => exact .unlessErr (hkeep ⟨rfl, rfl, rfl⟩)
  | unpack => exact .unlessErr (.require (.require (.require (hkeep ⟨rfl, rfl, rfl⟩))))
  | bitclr => exact .unlessErr (hkeep ⟨rfl, rfl, rfl⟩)
  | ser =>
    refine .unlessErr (.require (.require ?_))
    split
    · exact silent_raise _ s
    · exact .require (hkeep ⟨rfl, rfl, rfl⟩)
  | deser =>
    refine .unlessErr ?_
    split
    · exact silent_raise _ s
    · exact hkeep ⟨rfl, rfl, rfl⟩
  | inpush byte => exact .unlessErr (.require (hkeep ⟨rfl, rfl, rfl⟩))
  | outpop => exact absurd rfl ho
  | enc sym =>
    refine .unlessErr (.require ?_)
    split
    · exact silent_raise _ s
    · exact .require (hkeep ⟨rfl, rfl, rfl⟩)
  | dec =>
    refine .unlessErr (.require ?_)
    split
    · exact silent_fault s _
    · split
      · exact silent_raise _ s
      · exact .require (hkeep ⟨rfl, rfl, rfl⟩)

/-- What R74 says of DVALID and DATA in the response to a word that decodes to `x`, given in the state `s`. -/
def ResponseFields (x : Except Reject Instr) (s : State) (dvalid : Bool) (data : Data) : Prop :=
  (dvalid = false → data = 0) ∧
  (dvalid = true ↔ (∃ index : Byte, x = .ok (.rdreg index) ∧ index.toNat ≤ 10) ∨
    (x = .ok .outpop ∧ s.err = false ∧ s.outpos.toNat < s.outbuf.length)) ∧
  (∀ index : Byte, x = .ok (.rdreg index) → index.toNat ≤ 10 → regValue s index = some data) ∧
  (dvalid = true → x = .ok .outpop → ∃ b : Byte, s.outbuf[s.outpos.toNat]? = some b ∧ data = BitVec.ofNat 32 b.toNat)

/-- A next state has one response more, with the DVALID and DATA of R74, and keeps the rest of the host's side. -/
def Answers (x : Except Reject Instr) (s : State) (r : Result) : Prop :=
  ∀ t, r = .next t → ∃ u dvalid data, t = u.answered dvalid data ∧ SameHost s u ∧ ResponseFields x s dvalid data

theorem Silent.answers {x : Except Reject Instr} (h : Silent s r)
    (hr : ∀ index : Byte, x = .ok (.rdreg index) → ¬ index.toNat ≤ 10)
    (ho : x = .ok .outpop → s.err = false → ¬ s.outpos.toNat < s.outbuf.length) : Answers x s r := by
  intro t ht
  obtain ⟨u, rfl, hu⟩ := h t ht
  refine ⟨u, false, 0, rfl, hu, fun _ => rfl, ⟨nofun, ?_⟩, fun index hx hi => absurd hi (hr index hx), nofun⟩
  rintro (⟨index, hx, hi⟩ | ⟨hx, he, hlt⟩)
  · exact absurd hi (hr index hx)
  · exact absurd hlt (ho hx he)

theorem exec_rdreg_answers (index : Byte) (s : State) : Answers (.ok (.rdreg index)) s (exec (.rdreg index) s) := by
  by_cases hi : index.toNat ≤ 10
  · obtain ⟨v, hv⟩ := Option.isSome_iff_exists.1 ((regValue_isSome_iff s index).2 hi)
    rw [exec_rdreg_of_value hv]
    rintro t ⟨⟩
    refine ⟨s, true, v, rfl, ⟨rfl, rfl, rfl⟩, nofun, iff_of_true rfl (.inl ⟨index, rfl, hi⟩), ?_, nofun⟩
    rintro j ⟨⟩ -
    exact hv
  · rw [exec_rdreg_reserved (by omega)]
    refine (silent_raise _ s).answers ?_ nofun
    rintro j ⟨⟩
    exact hi

theorem exec_outpop_answers (s : State) : Answers (.ok .outpop) s (exec .outpop s) := by
  rcases he : s.err with _ | _
  · rcases hb : s.outbuf[s.outpos.toNat]? with _ | b
    · have hle := List.getElem?_eq_none_iff.1 hb
      rw [exec_outpop_at_end he hle]
      exact (silent_drop s).answers nofun fun _ _ => hle.not_gt
    · obtain ⟨hlt, -⟩ := List.getElem?_eq_some_iff.1 hb
      rw [exec_outpop_of_byte he hb]
      rintro t ⟨⟩
      exact ⟨s.advanceOut, true, _, rfl, ⟨rfl, rfl, rfl⟩, nofun, iff_of_true rfl (.inr ⟨rfl, he, hlt⟩), nofun,
        fun _ _ => ⟨b, hb, (BitVec.ofNat_toNat 32 b).symm⟩⟩
  · rw [exec_of_err he .outpop nofun nofun nofun]
    exact (silent_drop s).answers nofun fun _ h => absurd (he.symm.trans h) nofun

theorem exec_answers (i : Instr) (s : State) : Answers (.ok i) s (exec i s) := by
  by_cases hr : ∃ index, i = .rdreg index
  · obtain ⟨index, rfl⟩ := hr
    exact exec_rdreg_answers index s
  by_cases ho : i = .outpop
  · subst ho
    exact exec_outpop_answers s
  refine (silent_exec (fun index h => hr ⟨index, h⟩) ho s).answers ?_ ?_
  · rintro index ⟨⟩
    exact absurd ⟨index, rfl⟩ hr
  · rintro ⟨⟩
    exact absurd rfl ho

/-- R74 for every command word: completing, failing or dropped. -/
theorem stepCommand_answers (w : Word) (s : State) : Answers (decode w) s (stepCommand w s) := by
  unfold stepCommand
  rcases decode w with e | i
  · exact (silent_raise (rejectCause e) s).answers nofun nofun
  · exact exec_answers i s

end

/-- Settles O8: the fields by `responseWord_toNat`, the response by `stepCommand_answers` on the state with the event
taken. -/
theorem eachCommandGivesOneResponse : Obligations.EachCommandGivesOneResponse := by
  refine ⟨responseWord_toNat, fun s t w rest he ht => ?_⟩
  rw [step_of_command he] at ht
  obtain ⟨u, dvalid, data, rfl, ⟨hev, hcfg, hresp⟩, hfields⟩ := stepCommand_answers w _ t ht
  refine ⟨hev, hcfg, dvalid, data, ?_, hfields⟩
  rw [State.answered_responses, hresp]
  rfl

end Sys2Proof.Machine

/-! ## Family 40_tree: SYMPUSH, the split, BUILD and EXTRACT -/

namespace Sys2Proof.Machine

section
variable {s : State} {sym : Byte} {freq : Freq} {L : List SymEntry}

/-! ### SYMPUSH (R101) -/

theorem symKnown_iff : symKnown sym L = true ↔ ∃ e ∈ L, e.sym = sym := by simp [symKnown]

theorem aboveLast_iff : aboveLast freq L = true ↔ ∃ e, L.getLast? = some e ∧ e.freq.toNat < freq.toNat := by
  unfold aboveLast
  cases L.getLast? <;> simp

/-- A SYMLIST of 256 entries holds every symbol: one more would be 257 distinct bytes. -/
theorem symKnown_of_full (hL : SymlistOk L) (hn : L.length = 256) (sym : Byte) : symKnown sym L = true := by
  rw [symKnown_iff, ← List.mem_map]
  by_contra hnew
  have hle := nodup_length_le (List.nodup_cons.2 ⟨hnew, hL.distinct⟩)
  rw [List.length_cons, List.length_map] at hle
  omega

theorem exec_sympush_of_clear (he : s.err = false) (sym : Byte) (freq : Freq) : exec (.sympush sym freq) s =
    if symKnown sym s.symlist then .next (s.failed .symDup)
    else if aboveLast freq s.symlist then .next (s.failed .symUnsorted)
    else .next ((s.pushSym ⟨sym, freq⟩).answered false 0) := by
  rw [exec, execSympush, unlessErr_of_clear he]
  rcases symKnown sym s.symlist with _ | _
  · rcases aboveLast freq s.symlist with _ | _
    · rfl
    · exact raise_of_clear he _
  · exact raise_of_clear he _

theorem exec_sympush_of_known (he : s.err = false) (hk : symKnown sym s.symlist = true) :
    exec (.sympush sym freq) s = .next (s.failed .symDup) := by
  rw [exec_sympush_of_clear he, if_pos hk]

end

/-- Settles O25: the two checks in their order by `exec_sympush_of_clear`, the full list by `symKnown_of_full`. -/
theorem sympushFollowsItsRule : Obligations.SympushFollowsItsRule := by
  refine ⟨rejectsBadFields_of_row fun o a f h => ⟨.sympush a f, by simp [opRow, h]⟩, fun s sym freq =>
    ⟨wordOf_toNat _ _ _, fun he => exec_of_err he _ nofun nofun nofun,
      fun he hk => exec_sympush_of_known he (symKnown_iff.2 hk), fun he hk ha => ?_, fun he hk ha => ?_,
      fun he hL hn => exec_sympush_of_known he (symKnown_of_full hL hn sym)⟩⟩
  · rw [exec_sympush_of_clear he, if_neg (mt symKnown_iff.1 hk), if_pos (aboveLast_iff.2 ha)]
    rfl
  · have hlast : ¬ aboveLast freq s.symlist = true := fun h => by
      obtain ⟨e, hm, hlt⟩ := aboveLast_iff.1 h
      exact absurd (ha e hm) hlt.not_ge
    rw [exec_sympush_of_clear he, if_neg (mt symKnown_iff.1 hk), if_neg hlast]
    rfl

/-! ### The split (R100) -/

/-- Settles O26, by `halfIndex_first` from the running sum 0. -/
theorem splitIsAtTheFirstHalfTotal : Obligations.SplitIsAtTheFirstHalfTotal := by
  intro L hne
  obtain ⟨hlt, hreach, hmin⟩ := halfIndex_first (total := freqTotal L) 0 hne (by omega)
  simp only [Nat.zero_add] at hreach hmin
  exact ⟨hlt, hreach, hmin, rfl, rfl⟩

/-! ### BUILD (R102, R103) -/

section
variable {s : State} {L : List SymEntry} {l r t : CodeTree}

/-- Two parts that both build make the Node of their trees: one level above the longer of the two recursions. -/
theorem build_of_parts (hn : 2 ≤ L.length) (hl : build (splitLeft L) = some l) (hr : build (splitRight L) = some r) :
    build L = some (.node l r) := by
  have hl' := buildWithin_mono hl (le_max_left _ (splitRight L).length)
  have hr' := buildWithin_mono hr (le_max_right (splitLeft L).length _)
  exact build_of_buildWithin (by rw [buildWithin_cons_cons _ hn, hl', hr'])

theorem build_eq_some_iff (hn : 2 ≤ L.length) : build L = some t ↔
    ∃ l r, build (splitLeft L) = some l ∧ build (splitRight L) = some r ∧ t = .node l r := by
  constructor
  · intro h
    obtain ⟨f, l, r, -, hl, hr, rfl⟩ := buildWithin_node hn h
    exact ⟨l, r, build_of_buildWithin hl, build_of_buildWithin hr, rfl⟩
  · rintro ⟨l, r, hl, hr, rfl⟩
    exact build_of_parts hn hl hr

theorem exec_build_of_tree (he : s.err = false) (hb : build s.symlist = some t) :
    exec .build s = .next ((s.setTree t).answered false 0) := by
  simp only [exec, execBuild, unlessErr_of_clear he, hb, succeed_eq]

end

/-- Settles O27: the Node case by `build_eq_some_iff`, the sorted lists by `split_lengths` and `build_total`. -/
theorem buildFollowsItsThreeCases : Obligations.BuildFollowsItsThreeCases := by
  refine ⟨rfl, fun e => rfl, fun L hn t => build_eq_some_iff hn, fun L hs hn => ?_⟩
  obtain ⟨hlpos, hrpos, -⟩ := split_lengths hs hn
  obtain ⟨l, hl⟩ := build_total (sorted_splitLeft hs)
  obtain ⟨r, hr⟩ := build_total (sorted_splitRight hs)
  exact ⟨List.ne_nil_of_length_pos hlpos, List.ne_nil_of_length_pos hrpos, l, r, hl, hr⟩

/-- Settles O28: SYMLIST's own order gives the tree (`build_total`). -/
theorem buildWritesTheTreeOfSymlist : Obligations.BuildWritesTheTreeOfSymlist := by
  refine ⟨rejectsBadFields_of_row fun o a f h => ⟨.build, by simp [opRow, h]⟩, fun s =>
    ⟨rfl, fun he => exec_of_err he _ nofun nofun nofun, fun he hL => ?_⟩⟩
  obtain ⟨t, ht⟩ := build_total hL.sorted
  exact ⟨t, ht, exec_build_of_tree he ht⟩

/-! ### EXTRACT (R108 to R110) -/

/-- Settles O31: a Node's table is a walk with the empty path, so each code is the path to its leaf (`walk_mem`). -/
theorem extractListsLeavesWithTheirPaths : Obligations.ExtractListsLeavesWithTheirPaths := by
  refine ⟨rfl, fun a => rfl, fun l r => ⟨extract_syms _, fun e he => ?_⟩⟩
  obtain ⟨q, hcode, hleaf, -⟩ := walk_mem (extract_node l r ▸ he)
  rwa [hcode]

theorem exec_extract_of_clear {s : State} (he : s.err = false) : exec .extract s =
    if s.tv then .next ((s.setTable (extract s.tree)).answered false 0) else .next (s.failed .noTree) := by
  rw [exec, execExtract, unlessErr_of_clear he]
  rcases s.tv with _ | _
  · exact raise_of_clear he _
  · rfl

/-- Settles O30, by `exec_extract_of_clear` for the two values of TV. -/
theorem extractWritesTheTableOfTree : Obligations.ExtractWritesTheTableOfTree := by
  refine ⟨rejectsBadFields_of_row fun o a f h => ⟨.extract, by simp [opRow, h]⟩, fun s =>
    ⟨rfl, fun he => exec_of_err he _ nofun nofun nofun, fun he ht => ?_, fun he ht => ?_⟩⟩
  · rw [exec_extract_of_clear he, if_neg (by simp [ht])]
    rfl
  · rw [exec_extract_of_clear he, if_pos ht]
    rfl

end Sys2Proof.Machine

/-! ## Family 41_bitpack: PACK, UNPACK and BITCLR -/

namespace Sys2Proof.Machine

section
variable {s : State}

/-- A check with ERR = 0: the rest of the command, or the failure (R190). -/
theorem require_of_clear (he : s.err = false) (ok : Bool) (c : Cause) (r : Result) :
    require ok c s r = if ok then r else .next (s.failed c) := by
  cases ok with
  | true => rfl
  | false => exact raise_of_clear he c

/-! ### PACK (R120 to R122) -/

/-- Past its end a sequence reads like its padding. -/
theorem getD_append_replicate_false (B : Bits) (n k : Nat) :
    (B ++ List.replicate n false).getD k false = B.getD k false := by
  rcases lt_or_ge k B.length with hk | hk
  · exact List.getD_append _ _ _ _ hk
  · rw [List.getD_append_right _ _ _ _ hk, List.getD_eq_getElem?_getD, List.getElem?_getD_replicate_default_eq,
      List.getD_eq_default _ _ hk]

/-- Bit 7 - j of byte i of the packed bytes is bit 8i + j of the sequence, or 0 past its end (R53, R121). -/
theorem getLsbD_packBytes {B : Bits} {i j : Nat} {b : Byte} (hj : j < 8) (hb : (packBytes B)[i]? = some b) :
    b.getLsbD (7 - j) = B.getD (8 * i + j) false := by
  have hbit := getElem?_flatMap_msbBits _ hj hb
  rw [flatMap_packBytes] at hbit
  rw [← getD_append_replicate_false B (padCount B.length), List.getD_eq_getElem?_getD, hbit, Option.getD_some]

theorem exec_pack_of_clear (he : s.err = false) : exec .pack s =
    .next ((s.setPacked (packBytes s.bitseq) (BitVec.ofNat 8 (padCount s.bitseq.length))).answered false 0) :=
  unlessErr_of_clear he _

end

/-- Settles O33: PACK answers as `exec_pack_of_clear` says, and the packed bytes hold the padded bits
(`getLsbD_packBytes`). -/
theorem packFollowsItsRule : Obligations.PackFollowsItsRule :=
  ⟨rejectsBadFields_of_row fun o a f h => ⟨.pack, by simp [opRow, h]⟩, fun s =>
    ⟨rfl, fun he => exec_of_err he _ nofun nofun nofun, fun he =>
      ⟨packBytes s.bitseq, exec_pack_of_clear he, packBytes_length _, fun _ _ _ => getLsbD_packBytes⟩⟩⟩

/-! ### UNPACK (R123, R124) -/

section
variable {s : State}

/-- UNPACK's three checks in their order, then the unpacked bits. -/
theorem exec_unpack_of_clear (he : s.err = false) : exec .unpack s =
    if s.pv then
      if s.pad.toNat ≤ 8 * s.packbuf.length then
        if 8 * s.packbuf.length - s.pad.toNat ≤ s.cfg.bitCap then
          .next ((s.setBits (unpackBits s.packbuf s.pad.toNat)).answered false 0)
        else .next (s.failed .bitsFull)
      else .next (s.failed .unpackPadExceeds)
    else .next (s.failed .noPacked) := by
  simp only [exec, execUnpack, unlessErr_of_clear he, require_of_clear he, succeed_eq, decide_eq_true_eq]

/-- Bit k of the unpacked sequence is bit 7 - (k mod 8) of byte k / 8 (R53, R124). -/
theorem getElem?_unpackBits {P : List Byte} {p k : Nat} {b : Bool} (hb : (unpackBits P p)[k]? = some b) :
    b = (P.getD (k / 8) 0).getLsbD (7 - k % 8) := by
  have hk : k < 8 * P.length - p := by
    rw [← unpackBits_length]
    exact (List.getElem?_eq_some_iff.1 hb).1
  have hbyte : P[k / 8]? = some (P.getD (k / 8) 0) := by
    rw [List.getD_eq_getElem _ _ (by omega), List.getElem?_eq_getElem]
  have hbit := getElem?_flatMap_msbBits P (Nat.mod_lt k (by omega)) hbyte
  rw [Nat.div_add_mod] at hbit
  rw [unpackBits, List.getElem?_take_of_lt hk, hbit] at hb
  exact (Option.some.inj hb).symm

end

/-- Settles O34: each outcome is a branch of `exec_unpack_of_clear`, and the bits are those of PACKBUF
(`getElem?_unpackBits`). -/
theorem unpackFollowsItsRule : Obligations.UnpackFollowsItsRule := by
  refine ⟨rejectsBadFields_of_row fun o a f h => ⟨.unpack, by simp [opRow, h]⟩, fun s =>
    ⟨rfl, fun he => exec_of_err he _ nofun nofun nofun, fun he hp => ?_, fun he hp hpad => ?_,
      fun he hp hpad hcap => ?_, fun he hp hpad hcap =>
      ⟨unpackBits s.packbuf s.pad.toNat, ?_, unpackBits_length, fun _ _ => getElem?_unpackBits⟩⟩⟩ <;>
    rw [exec_unpack_of_clear he]
  · rw [if_neg (by simp [hp])]
    rfl
  · rw [if_pos hp, if_neg hpad.not_ge]
    rfl
  · rw [if_pos hp, if_pos hpad, if_neg hcap.not_ge]
    rfl
  · rw [if_pos hp, if_pos hpad, if_pos hcap]
    rfl

/-! ### BITCLR (R125) -/

/-- Settles O35: BITCLR has no check but ERR. -/
theorem bitclrEmptiesBitseq : Obligations.BitclrEmptiesBitseq :=
  ⟨rejectsBadFields_of_row fun o a f h => ⟨.bitclr, by simp [opRow, h]⟩, fun _ =>
    ⟨rfl, fun he => exec_of_err he _ nofun nofun nofun, fun he => unlessErr_of_clear he _⟩⟩

end Sys2Proof.Machine

/-! ## Family 42_container: SER, DESER, path insertion, INPUSH and OUTPOP -/

namespace Sys2Proof.Machine

/-! ### SER (R136) -/

/-- A non-empty table with a count, a padding and code lengths the format can hold is written as R136 says. -/
theorem serialize_of_storable {ct : List CodeEntry} {p : Byte} (hne : ct ≠ []) (hn : ct.length ≤ 65535)
    (hp : 1 ≤ p.toNat ∧ p.toNat ≤ 8) (hl : ∀ e ∈ ct, 1 ≤ e.code.length ∧ e.code.length ≤ 255) (P : List Byte) :
    serialize ct P p = .ok (beBytes ct.length 2 ++ [p] ++ ct.flatMap entryBytes ++ P) := by
  have hs : codesStorable ct = true := by simpa [codesStorable] using hl
  cases ct with
  | nil => exact absurd rfl hne
  | cons e es => exact if_pos ⟨hn, hp, hs⟩

/-- SER when every check passes. -/
theorem exec_ser_of_blob {s : State} {blob : List Byte} (he : s.err = false) (hcv : s.cv = true) (hpv : s.pv = true)
    (hs : serialize s.ctab s.packbuf s.pad = .ok blob) (hfit : blob.length ≤ s.cfg.outCap) :
    exec .ser s = .next ((s.setOut blob).answered false 0) := by
  simp only [exec, execSer, unlessErr_of_clear he, hcv, hpv, hs, hfit, decide_true, require_true, succeed_eq]

/-- Settles O38: the blob by `serialize_of_storable`, its size by `flatMap_entryBytes_length`. -/
theorem serWritesTheContainer : Obligations.SerWritesTheContainer := by
  refine fun s => ⟨rfl, fun he hcv hpv hne hn hp1 hp8 hl hfit => ?_⟩
  have hblob := serialize_of_storable hne hn ⟨hp1, hp8⟩ hl s.packbuf
  have hlen : (beBytes s.ctab.length 2 ++ [s.pad] ++ s.ctab.flatMap entryBytes ++ s.packbuf).length =
      3 + tableLength s.ctab + s.packbuf.length := by
    simp only [List.length_append, beBytes_length, List.length_singleton, flatMap_entryBytes_length]
  rw [exec_ser_of_blob he hcv hpv hblob (hlen.trans_le hfit), List.flatMap_def]
  rfl

/-! ### The header of a container (R141) -/

section
variable {n1 n0 p : Byte}

theorem parseContainer_short {b : List Byte} (h : b.length < 3) : parseContainer b = .error .truncHeader := by
  match b, h with
  | [], _ => rfl
  | [_], _ => rfl
  | [_, _], _ => rfl

theorem parseContainer_count_zero (p : Byte) (rest : List Byte) : parseContainer (0 :: 0 :: p :: rest) =
    if p ≠ 0 then .error .emptyPad else if rest ≠ [] then .error .emptyTrailing else .ok ([], .null, [], 0) := rfl

theorem parseContainer_countRange (h : 256 < 256 * n1.toNat + n0.toNat) (p : Byte) (rest : List Byte) :
    parseContainer (n1 :: n0 :: p :: rest) = .error .countRange := by
  rw [parseContainer, unBE_pair, if_neg (by omega), if_pos h]

theorem parseContainer_padRange (hn : 1 ≤ 256 * n1.toNat + n0.toNat) (hn' : 256 * n1.toNat + n0.toNat ≤ 256)
    (hp : p.toNat < 1 ∨ 8 < p.toNat) (rest : List Byte) :
    parseContainer (n1 :: n0 :: p :: rest) = .error .padRange := by
  rw [parseContainer, unBE_pair, if_neg (by omega), if_neg hn'.not_gt, if_pos hp]

/-- After the header the entries and the bit region decide (R142, R144). -/
theorem parseContainer_of_header (hn : 1 ≤ 256 * n1.toNat + n0.toNat) (hn' : 256 * n1.toNat + n0.toNat ≤ 256)
    (hp : 1 ≤ p.toNat) (hp' : p.toNat ≤ 8) (rest : List Byte) : parseContainer (n1 :: n0 :: p :: rest) =
      (parseEntries (256 * n1.toNat + n0.toNat) rest [] (.node .null .null)).bind
        fun (ct, t, P) => parseRegion p ct t P := by
  rw [parseContainer, unBE_pair, if_neg (by omega), if_neg hn'.not_gt, if_neg (by omega)]
  rcases parseEntries _ rest [] _ with c | ⟨ct, t, P⟩ <;> rfl

end

/-- Settles O43: one lemma on `parseContainer` for each check of the header, and `parseContainer_of_header` after
them. -/
theorem deserChecksTheHeaderInOrder : Obligations.DeserChecksTheHeaderInOrder := by
  refine ⟨fun b => parseContainer_short, fun p rest hp => ?_, fun rest hrest => ?_, rfl,
    fun n1 n0 p rest h => parseContainer_countRange h p rest,
    fun n1 n0 p rest hn hn' hp => parseContainer_padRange hn hn' hp rest,
    fun n1 n0 p rest c hn hn' hp hp' hc => ?_, fun n1 n0 p rest ct t P hn hn' hp hp' hok => ?_⟩
  · rw [parseContainer_count_zero, if_pos hp]
  · rw [parseContainer_count_zero, if_neg (by simp), if_pos hrest]
  · rw [parseContainer_of_header hn hn' hp hp', hc]
    rfl
  · rw [parseContainer_of_header hn hn' hp hp', hok]
    rfl

/-! ### DESER (R140, R145) -/

/-- What a parse that succeeds has read: the empty container, or the entries a header counts and a bit region. -/
theorem parseContainer_ok {b P : List Byte} {ct : List CodeEntry} {t : CodeTree} {p : Byte}
    (h : parseContainer b = .ok (ct, t, P, p)) :
    (ct = [] ∧ t = .null ∧ P = [] ∧ p = 0) ∨
      ∃ n rest, 1 ≤ n ∧ n ≤ 256 ∧ parseEntries n rest [] (.node .null .null) = .ok (ct, t, P) ∧
        1 ≤ p.toNat ∧ p.toNat ≤ 8 ∧ p.toNat ≤ 8 * P.length := by
  match b with
  | [] | [_] | [_, _] => cases h
  | n1 :: n0 :: q :: rest =>
    by_cases hn0 : 256 * n1.toNat + n0.toNat = 0
    · obtain ⟨rfl, rfl⟩ : n1 = 0 ∧ n0 = 0 := by
        constructor <;> apply BitVec.eq_of_toNat_eq <;> simp <;> omega
      rw [parseContainer_count_zero] at h
      split at h
      · cases h
      · split at h <;> cases h
        exact .inl ⟨rfl, rfl, rfl, rfl⟩
    by_cases hn : 256 < 256 * n1.toNat + n0.toNat
    · rw [parseContainer_countRange hn] at h
      cases h
    by_cases hq : q.toNat < 1 ∨ 8 < q.toNat
    · rw [parseContainer_padRange (by omega) (by omega) hq] at h
      cases h
    rw [parseContainer_of_header (by omega) (by omega) (by omega) (by omega)] at h
    rcases hes : parseEntries (256 * n1.toNat + n0.toNat) rest [] (.node .null .null) with c | ⟨ct', t', P'⟩ <;>
      rw [hes] at h
    · cases h
    · simp only [Except.bind, parseRegion] at h
      split at h <;> cases h
      exact .inr ⟨_, rest, by omega, by omega, hes, by omega, by omega, by omega⟩

/-- The tree a parse has grown entry by entry is the decode tree of the table it has read. -/
theorem decodeTree_of_parseContainer {b P : List Byte} {ct : List CodeEntry} {t : CodeTree} {p : Byte}
    (h : parseContainer b = .ok (ct, t, P, p)) : decodeTree ct = some t := by
  rcases parseContainer_ok h with ⟨rfl, rfl, -, -⟩ | ⟨n, rest, hn, -, hes, -, -, -⟩
  · rfl
  · obtain ⟨es, hct, hlen, hins, -, -, -⟩ := parseEntries_ok hes
    rw [hct, List.nil_append, decodeTree_eq_insertAll (List.ne_nil_of_length_pos (by omega)), hins]

theorem exec_deser_of_error {s : State} {c : Cause} (he : s.err = false) (hc : parseContainer s.inbuf = .error c) :
    exec .deser s = .next (s.failed c) := by
  simp only [exec, execDeser, unlessErr_of_clear he, hc, raise_of_clear he]

theorem exec_deser_of_ok {s : State} {ct : List CodeEntry} {t : CodeTree} {P : List Byte} {p : Byte}
    (he : s.err = false) (hok : parseContainer s.inbuf = .ok (ct, t, P, p)) :
    exec .deser s = .next ((s.commitContainer ct t P p).answered false 0) := by
  simp only [exec, execDeser, unlessErr_of_clear he, hok, succeed_eq]

/-- Settles O42: DESER answers as the parse of IN does, and its tree is the decode tree
(`decodeTree_of_parseContainer`). -/
theorem deserCommitsOrFails : Obligations.DeserCommitsOrFails :=
  ⟨rejectsBadFields_of_row fun o a f h => ⟨.deser, by simp [opRow, h]⟩, fun _ =>
    ⟨rfl, fun he => exec_of_err he _ nofun nofun nofun, fun _ => exec_deser_of_error,
      fun _ _ _ _ he hok => ⟨exec_deser_of_ok he hok, decodeTree_of_parseContainer hok⟩⟩⟩

/-! ### The entries of a container (R142) -/

section
variable {s L : Byte} {rest : List Byte} {ct : List CodeEntry} {t : CodeTree}

theorem parseEntries_short {b : List Byte} (n : Nat) (h : b.length < 2) :
    parseEntries (n + 1) b ct t = .error .truncEntry := by
  match b, h with
  | [], _ => rfl
  | [_], _ => rfl

theorem parseEntries_succ (n : Nat) (s L : Byte) (rest : List Byte) (ct : List CodeEntry) (t : CodeTree) :
    parseEntries (n + 1) (s :: L :: rest) ct t =
      (parseCode s L rest ct t).bind fun (ct', t', b') => parseEntries n b' ct' t' := by
  rw [parseEntries]
  rcases parseCode s L rest ct t with c | ⟨ct', t', b'⟩ <;> rfl

theorem parseCode_zeroLen (h0 : L.toNat = 0) : parseCode s L rest ct t = .error .zeroLen := by
  rw [parseCode, if_pos h0]

theorem parseCode_codeWide (h0 : L.toNat ≠ 0) (hm : ceil8 L.toNat ≤ rest.length)
    (hw : 2 ^ L.toNat ≤ unBE (rest.take (ceil8 L.toNat))) : parseCode s L rest ct t = .error .codeWide := by
  rw [parseCode, if_neg h0, if_neg hm.not_gt, if_pos hw]

/-- An entry whose code is there and fits its length: `c` is that code, as the bits of the stored value. -/
theorem parseCode_of_code {c : Bits} (h0 : L.toNat ≠ 0) (hm : ceil8 L.toNat ≤ rest.length)
    (hlen : c.length = L.toNat) (hval : val c = unBE (rest.take (ceil8 L.toNat))) :
    parseCode s L rest ct t =
      if ∃ e ∈ ct, e.sym = s then .error .dupSym
      else (insertPath t c s).elim (.error .prefixConflict)
        fun t' => .ok (ct ++ [⟨s, c⟩], t', rest.drop (ceil8 L.toNat)) := by
  have hbits : bitsN (unBE (rest.take (ceil8 L.toNat))) L.toNat = c := by rw [← hval, ← hlen, bitsN_val]
  have hfits : ¬ 2 ^ L.toNat ≤ unBE (rest.take (ceil8 L.toNat)) := by
    rw [← hval, ← hlen]
    exact (val_lt c).not_ge
  rw [parseCode, if_neg h0, if_neg hm.not_gt, if_neg hfits, hbits]
  simp only [List.any_eq_true, beq_iff_eq]
  cases insertPath t c s <;> rfl

end

/-- Settles O44: `parseEntries_succ` leaves each check to the lemma of its case on `parseCode`. -/
theorem deserChecksAnEntryInOrder : Obligations.DeserChecksAnEntryInOrder := by
  refine fun n ct t => ⟨fun b => rfl, fun b => parseEntries_short n, fun s L rest =>
    ⟨ceil8 L.toNat, rfl, fun h0 => ?_, fun h0 hm => ?_, fun h0 hm hw => ?_, fun c h0 hm hlen hval =>
      ⟨fun hd => ?_, fun hd hi => ?_, fun t' hd hi => ?_⟩⟩⟩ <;>
    rw [parseEntries_succ]
  · rw [parseCode_zeroLen h0]
    rfl
  · rw [parseCode_truncated ct t h0 hm]
    rfl
  · rw [parseCode_codeWide h0 hm hw]
    rfl
  · rw [parseCode_of_code h0 hm hlen hval, if_pos hd]
    rfl
  · rw [parseCode_of_code h0 hm hlen hval, if_neg hd, hi]
    rfl
  · rw [parseCode_of_code h0 hm hlen hval, if_neg hd, hi]
    rfl

/-! ### Path insertion and the decode tree (R143) -/

/-- At the last bit of a code only a null child takes the leaf. -/
theorem insertPath_nil (t : CodeTree) (a : Byte) : insertPath t [] a = if t = .null then some (.leaf a) else none := by
  cases t <;> rfl

theorem insertPath_null {c : Bits} (hc : c ≠ []) (a : Byte) :
    insertPath .null c a = insertPath (.node .null .null) c a := by
  obtain ⟨b, c, rfl⟩ := List.exists_cons_of_ne_nil hc
  exact insertPath_null_cons b c a

theorem insertAll_singleton (t : CodeTree) (e : CodeEntry) : insertAll t [e] = insertPath t e.code e.sym := by
  rw [insertAll]
  cases insertPath t e.code e.sym <;> rfl

theorem decodeTree_append_singleton {ct : List CodeEntry} (hne : ct ≠ []) (e : CodeEntry) :
    decodeTree (ct ++ [e]) = (decodeTree ct).bind fun t => insertPath t e.code e.sym := by
  rw [decodeTree_eq_insertAll hne, decodeTree_eq_insertAll (by simp), insertAll_append]
  simp only [insertAll_singleton]

theorem TableOk.code_ne_nil {ct : List CodeEntry} (h : TableOk ct) : ∀ e ∈ ct, e.code ≠ [] := fun e he =>
  List.ne_nil_of_length_pos (h.lengths e he).1

/-- Settles O45: `insertPath_cons` goes into the child of the first bit, the fold is `decodeTree_append_singleton`, and
the tables of R24 have a decode tree (`decodeTree_total`, `decodeTree_spec`). -/
theorem insertFollowsItsRule : Obligations.InsertFollowsItsRule := by
  refine ⟨fun l r ch b a hch => ⟨fun hne => ?_, fun hnull => ?_, fun c hc =>
    ⟨fun x hleaf => ?_, fun hnull => ?_, fun l2 r2 hnode => ?_⟩⟩, rfl, fun e => insertAll_singleton _ e,
    fun ct e hne => decodeTree_append_singleton hne e, fun ct hok hne => ?_⟩
  · rw [insertPath_cons, ← hch, insertPath_nil, if_neg hne]
    rfl
  · rw [insertPath_cons, ← hch, insertPath_nil, if_pos hnull]
    rfl
  · rw [insertPath_cons, ← hch, hleaf, insertPath_leaf]
    rfl
  · rw [insertPath_cons, ← hch, hnull, insertPath_null hc]
  · rw [insertPath_cons, ← hch, hnode]
  · obtain ⟨t, ht⟩ := decodeTree_total hok.code_ne_nil hok.prefixFree
    obtain ⟨⟨l, r, rfl⟩, -, -⟩ := decodeTree_spec hne hok.code_ne_nil ht
    exact ⟨l, r, ht⟩

/-! ### INPUSH (R139) and OUTPOP (R146) -/

theorem exec_inpush_of_clear {s : State} (he : s.err = false) (b : Byte) : exec (.inpush b) s =
    if s.inbuf.length + 1 ≤ s.cfg.inCap then .next ((s.pushIn b).answered false 0) else .next (s.failed .inFull) := by
  simp only [exec, execInpush, unlessErr_of_clear he, require_of_clear he, succeed_eq, decide_eq_true_eq]

/-- Settles O41, by `exec_inpush_of_clear` for an IN with and without room. -/
theorem inpushFollowsItsRule : Obligations.InpushFollowsItsRule := by
  refine ⟨rejectsBadFields_of_row fun o a f h => ⟨.inpush a, by simp [opRow, h]⟩, fun s b =>
    ⟨(wordOf_toNat 0x32 b 0).trans (Nat.add_zero _), fun he => exec_of_err he _ nofun nofun nofun,
      fun he hfull => ?_, fun he hroom => ?_⟩⟩
  · rw [exec_inpush_of_clear he, if_neg hfull.not_ge]
    rfl
  · rw [exec_inpush_of_clear he, if_pos hroom]
    rfl

/-- Settles O48, by `exec_outpop_of_byte` and `exec_outpop_at_end`. -/
theorem outpopFollowsItsRule : Obligations.OutpopFollowsItsRule := by
  refine ⟨rejectsBadFields_of_row fun o a f h => ⟨.outpop, by simp [opRow, h]⟩, fun s =>
    ⟨rfl, fun he => exec_of_err he _ nofun nofun nofun, fun b he hb => ?_, exec_outpop_at_end⟩⟩
  rw [exec_outpop_of_byte he hb, BitVec.ofNat_toNat]
  rfl

end Sys2Proof.Machine

/-! ## Family 43_codec: ENC, DEC and the decode walk -/

namespace Sys2Proof.Machine

/-! ### ENC (R160) -/

/-- On a table with distinct symbols the lookup of a symbol finds its only entry (R24). -/
theorem lookupCode_of_mem {ct : List CodeEntry} {e : CodeEntry} (hd : (ct.map fun x => x.sym).Nodup) (he : e ∈ ct) :
    lookupCode e.sym ct = some e.code := by
  obtain ⟨c, hc⟩ := lookupCode_isSome (List.mem_map_of_mem (f := fun x : CodeEntry => x.sym) he)
  have heq : ⟨e.sym, c⟩ = e := List.inj_on_of_nodup_map hd (lookupCode_mem hc) he rfl
  rw [hc, ← heq]

/-- ENC's three checks in their order, then the code of the symbol. -/
theorem exec_enc_of_clear {s : State} (he : s.err = false) (sym : Byte) : exec (.enc sym) s =
    if s.cv then
      (lookupCode sym s.ctab).elim (.next (s.failed .encNoEntry)) fun c =>
        if s.bitseq.length + c.length ≤ s.cfg.bitCap then .next ((s.setBits (s.bitseq ++ c)).answered false 0)
        else .next (s.failed .bitsFull)
    else .next (s.failed .noTable) := by
  simp only [exec, execEnc, unlessErr_of_clear he, require_of_clear he, raise_of_clear he, succeed_eq,
    decide_eq_true_eq]
  cases lookupCode sym s.ctab <;> rfl

/-- Settles O50: each outcome is a branch of `exec_enc_of_clear`, and the entry found is the symbol's only one
(`lookupCode_of_mem`). -/
theorem encFollowsItsRule : Obligations.EncFollowsItsRule := by
  refine ⟨rejectsBadFields_of_row fun o a f h => ⟨.enc a, by simp [opRow, h]⟩, fun s sym =>
    ⟨(wordOf_toNat 0x40 sym 0).trans (Nat.add_zero _), fun he => exec_of_err he _ nofun nofun nofun,
      fun he hcv => ?_, fun he hcv hno => ?_, fun e he hcv hd hmem hsym => ?_⟩⟩
  · rw [exec_enc_of_clear he, if_neg (by simp [hcv])]
    rfl
  · rw [exec_enc_of_clear he, if_pos hcv, lookupCode_eq_none.2 hno]
    rfl
  · subst hsym
    rw [exec_enc_of_clear he, if_pos hcv, lookupCode_of_mem hd hmem]
    exact ⟨fun hfull => if_neg hfull.not_ge, fun hroom => if_pos hroom⟩

/-! ### DEC (R162) -/

section
variable {s : State} {D : CodeTree}

theorem exec_dec_of_noTable (he : s.err = false) (hcv : s.cv = false) : exec .dec s = .next (s.failed .noTable) := by
  rw [exec, execDec, unlessErr_of_clear he, hcv]
  exact raise_of_clear he _

theorem exec_dec_of_error {c : Cause} (he : s.err = false) (hcv : s.cv = true) (hD : decodeTree s.ctab = some D)
    (hc : decodeBits D s.bitseq = .error c) : exec .dec s = .next (s.failed c) := by
  simp only [exec, execDec, unlessErr_of_clear he, hcv, require_true, hD, hc, raise_of_clear he]

theorem exec_dec_of_ok {out : List Byte} (he : s.err = false) (hcv : s.cv = true) (hD : decodeTree s.ctab = some D)
    (hout : decodeBits D s.bitseq = .ok out) : exec .dec s =
      if out.length ≤ s.cfg.outCap then .next ((s.setOut out).answered false 0) else .next (s.failed .outFull) := by
  simp only [exec, execDec, unlessErr_of_clear he, hcv, hD, hout, require_of_clear he, if_true, succeed_eq,
    decide_eq_true_eq]

end

/-- Settles O52: a table that meets R24 has a decode tree (`decodeTree_total`), and DEC answers as the walk in it
does. -/
theorem decFollowsItsRule : Obligations.DecFollowsItsRule := by
  refine ⟨rejectsBadFields_of_row fun o a f h => ⟨.dec, by simp [opRow, h]⟩, fun s =>
    ⟨rfl, fun he => exec_of_err he _ nofun nofun nofun, exec_dec_of_noTable, fun he hcv hok => ?_⟩⟩
  obtain ⟨D, hD⟩ := decodeTree_total hok.code_ne_nil hok.prefixFree
  refine ⟨D, hD, fun c => exec_dec_of_error he hcv hD, fun out hout => ?_⟩
  rw [exec_dec_of_ok he hcv hD hout]
  exact ⟨fun hfull => if_neg hfull.not_ge, fun hroom => if_pos hroom⟩

/-! ### The decode walk (R163) -/

section
variable {root cur l r l' r' : CodeTree} {k : Nat} {b : Bool} {c B : Bits}

theorem decodeFrom_cons_of_null (h : child b cur = .null) :
    decodeFrom root cur k (b :: B) = .error .streamNullChild := by
  rw [decodeFrom, h]

/-- `decodeFrom_node` without its premise: the empty path leads to the Node it starts at. -/
theorem decodeFrom_to_node (h : follow cur c = .node l r) :
    decodeFrom root cur k (c ++ B) = decodeFrom root (.node l r) (k + c.length) B := by
  cases c with
  | nil => exact congrArg (decodeFrom root · k B) h
  | cons b c => exact decodeFrom_node h (List.cons_ne_nil b c)

/-- A path from a root Node to a leaf emits its symbol, and the rest is decoded from the root. -/
theorem decodeBits_path {a : Byte} (h : follow (.node l r) c = .leaf a) :
    decodeBits (.node l r) (c ++ B) = (decodeBits (.node l r) B).map (a :: ·) := by
  have hc : c ≠ [] := by
    rintro rfl
    cases h
  rw [decodeBits, decodeFrom_path hc h, decodeBits]
  cases decodeFrom (.node l r) (.node l r) 0 B <;> rfl

theorem decodeBits_null_child (h : follow (.node l r) c = .node l' r') (hb : child b (.node l' r') = .null) :
    decodeBits (.node l r) (c ++ b :: B) = .error .streamNullChild := by
  rw [decodeBits, decodeFrom_to_node h, decodeFrom_cons_of_null hb]

theorem decodeBits_end_mid_path (hc : c ≠ []) (h : follow (.node l r) c = .node l' r') :
    decodeBits (.node l r) c = .error .streamEndMidPath := by
  rw [decodeBits, ← List.append_nil c, decodeFrom_node h hc, decodeFrom, if_neg (by simp [hc])]

end

/-- Settles O53: `decodeBits_path` for both outcomes of the rest, and a lemma for each way the walk stops. -/
theorem decodeWalksTheTree : Obligations.DecodeWalksTheTree := by
  refine ⟨fun root => rfl, fun B hB => ?_, fun l r c B =>
    ⟨fun a out hleaf hrest => ?_, fun a e hleaf hrest => ?_, fun l' r' b => decodeBits_null_child,
      fun l' r' => decodeBits_end_mid_path⟩⟩
  · obtain ⟨b, B, rfl⟩ := List.exists_cons_of_ne_nil hB
    exact decodeFrom_cons_of_null (child_null b)
  · rw [decodeBits_path hleaf, hrest]
    rfl
  · rw [decodeBits_path hleaf, hrest]
    rfl

end Sys2Proof.Machine

/-! ## Family 44_control: NOP -/

namespace Sys2Proof.Machine

/-- Settles O22: NOP's arm answers with STATUS whatever ERR is, and opcode 00 has a row of the map with no operand
(`rejectsBadFields_of_row`). -/
theorem nopOnlyResponds : Obligations.NopOnlyResponds :=
  ⟨rfl, succeed_eq, rejectsBadFields_of_row fun o a f h => ⟨.nop, by simp [opRow, h]⟩⟩

end Sys2Proof.Machine

/-! ## Family 60_exceptions: what a failing command leaves, and what executes with an error recorded (R188, R189) -/

namespace Sys2Proof.Machine

section
variable {s u : State} {i : Instr}

/-- No effect touches ERR but that of CLEAR, which leaves it 0. -/
theorem Effect.err_iff (h : Effect i s u) : u.err = true ↔ i ≠ .clear ∧ s.err = true := by
  cases i with
  | nop => obtain rfl := h; simp
  | clear => obtain rfl := h; simp
  | rdreg index => obtain ⟨-, rfl⟩ := h; simp
  | sympush sym freq => obtain ⟨-, -, rfl⟩ := h; simp
  | build => obtain ⟨x, -, rfl⟩ := h; simp
  | extract => obtain ⟨-, rfl⟩ := h; simp
  | pack => obtain rfl := h; simp
  | unpack => obtain ⟨-, -, -, rfl⟩ := h; simp
  | bitclr => obtain rfl := h; simp
  | ser => obtain ⟨-, -, blob, -, -, rfl⟩ := h; simp
  | deser => obtain ⟨ct, x, P, p, -, rfl⟩ := h; simp
  | inpush b => obtain ⟨-, rfl⟩ := h; simp
  | outpop => obtain ⟨b, -, rfl⟩ | ⟨-, rfl⟩ := h <;> simp
  | enc sym => obtain ⟨-, c, -, -, rfl⟩ := h; simp
  | dec => obtain ⟨-, D, out, -, -, -, rfl⟩ := h; simp

/-- The causes of BadCommand a word that is no command can have (R73). -/
theorem rejectCause_mem (r : Reject) : rejectCause r ∈ [Cause.reservedOpcode, .reservedField] := by
  cases r <;> simp [rejectCause]

end

/-- Settles O18: of the three things a command can do (`exec_next_cases`), completing leaves ERR = 0 (`Effect.err_iff`)
and being dropped needs ERR = 1, so it fails with one of its causes; a word that is no command raises the cause of its
reject (`step_of_reject`). -/
theorem failingCommandChangesOnlyTheErrorFields : Obligations.FailingCommandChangesOnlyTheErrorFields := by
  refine ⟨fun i s t he ht herr => ?_, fun s t w rest r hev he hd ht => ?_⟩
  · rcases exec_next_cases ht with ⟨u, v, d, hu, rfl⟩ | ⟨he', -⟩ | ⟨-, hfail⟩
    · obtain ⟨-, he'⟩ := hu.err_iff.1 herr
      exact absurd (he.symm.trans he') nofun
    · exact absurd (he.symm.trans he') nofun
    · exact hfail
  · rw [step_of_reject hev hd, raise_of_clear (s := { s with events := rest }) he] at ht
    cases ht
    exact ⟨rejectCause r, rejectCause_mem r, rfl⟩

/-- Settles O19: NOP and CLEAR complete, an index of the register map has a value (`regValue_isSome_iff`), every other
command is dropped by `exec_of_err`, and so is the error a word that is no command would raise. -/
theorem stickyErrorDropsOtherCommands : Obligations.StickyErrorDropsOtherCommands := by
  refine fun s he => ⟨succeed_eq s, ⟨_, succeed_eq s.clearAll, s.clearAll_err⟩, fun index hi => ?_, exec_of_err he,
    fun w rest r hev hd => ?_⟩
  · obtain ⟨v, hv⟩ := Option.isSome_iff_exists.1 ((regValue_isSome_iff s index).2 hi)
    exact ⟨v, hv, exec_rdreg_of_value hv⟩
  · rw [step_of_reject hev hd]
    exact raise_of_err (s := { s with events := rest }) he _

end Sys2Proof.Machine

/-! ## Family other: decode and encode, and the order of bytes and bits (R9, R55, R70 to R79) -/

namespace Sys2Proof

section
variable {op a : Byte} {f : Freq} {useA useF : Bool} {i : Instr} {w : Word}

/-- The operands of the command a row makes are the fields the row uses, and 0 in place of the others. -/
theorem operands_of_opRow (h : opRow op a f = some (useA, useF, i)) :
    aOperand i = (if useA then a else 0) ∧ fOperand i = if useF then f else 0 := by
  unfold opRow at h
  split at h <;> cases h <;> exact ⟨rfl, rfl⟩

/-- The encoding of a command selects the row of the command (R72). -/
theorem encodedRow (i : Instr) : Laws.EncodedRow.Statement i := by
  cases i with
  | nop => exact Laws.EncodedRow.nop
  | clear => exact Laws.EncodedRow.clear
  | rdreg index => exact Laws.EncodedRow.rdreg index
  | sympush sym freq => exact Laws.EncodedRow.sympush sym freq
  | build => exact Laws.EncodedRow.build
  | extract => exact Laws.EncodedRow.extract
  | pack => exact Laws.EncodedRow.pack
  | unpack => exact Laws.EncodedRow.unpack
  | bitclr => exact Laws.EncodedRow.bitclr
  | ser => exact Laws.EncodedRow.ser
  | deser => exact Laws.EncodedRow.deser
  | inpush byte => exact Laws.EncodedRow.inpush byte
  | outpop => exact Laws.EncodedRow.outpop
  | enc sym => exact Laws.EncodedRow.enc sym
  | dec => exact Laws.EncodedRow.dec

theorem decode_encode (i : Instr) : decode (encode i) = .ok i := decode_eq_ok_iff.2 (encodedRow i)

/-- A word that decodes is the word of its fields, because RSV and the fields that are no operand are 0. -/
theorem encode_of_decode (h : decode w = .ok i) : encode i = w := by
  obtain ⟨useA, useF, hrow, hz⟩ := decode_eq_ok_iff.1 h
  obtain ⟨hop, -, -⟩ := opRow_eq_some hrow
  obtain ⟨ha, hf⟩ := operands_of_opRow hrow
  simp only [fieldsZero, Bool.and_eq_true, Bool.or_eq_true, beq_iff_eq] at hz
  obtain ⟨⟨hrsv, hA⟩, hF⟩ := hz
  rw [word_eq_iff, encode, opField_wordOf, aField_wordOf, rsvField_wordOf, fField_wordOf, hop, ha, hf]
  refine ⟨rfl, ?_, hrsv.symm, ?_⟩
  · rcases hA with hA | hA <;> simp [hA]
  · rcases hF with hF | hF <;> simp [hF]

end

/-- Settles O9, by `decode_encode` and `encode_of_decode`. -/
theorem decodeAndEncodeAgree : Obligations.DecodeAndEncodeAgree :=
  ⟨decode_encode, fun _ _ => encode_of_decode⟩

end Sys2Proof

/-! ## Family other: the conversions and the packer (R9, R121 to R126) -/

namespace Sys2Proof.Machine

/-- The first byte of a big-endian number is its quotient, the others its remainder. -/
theorem unBE_cons_div_mod (b : Byte) (bs : List Byte) :
    unBE (b :: bs) / 256 ^ bs.length = b.toNat ∧ unBE (b :: bs) % 256 ^ bs.length = unBE bs :=
  (Nat.div_mod_unique (Nat.pow_pos (by omega))).2 ⟨by rw [unBE_cons]; ring, unBE_lt bs⟩

theorem unBE_injective {as bs : List Byte} (hl : as.length = bs.length) (hv : unBE as = unBE bs) : as = bs := by
  induction as generalizing bs with
  | nil => exact (List.eq_nil_of_length_eq_zero hl.symm).symm
  | cons a as ih =>
    cases bs with
    | nil => cases hl
    | cons b bs =>
      have hl' : as.length = bs.length := Nat.succ.inj hl
      obtain ⟨ha, has⟩ := unBE_cons_div_mod a as
      obtain ⟨hb, hbs⟩ := unBE_cons_div_mod b bs
      rw [hl', hv] at ha has
      rw [BitVec.eq_of_toNat_eq (ha.symm.trans hb), ih hl' (has.symm.trans hbs)]

theorem beBytes_unBE (bs : List Byte) : beBytes (unBE bs) bs.length = bs := by
  apply unBE_injective (beBytes_length _ _)
  rw [unBE_beBytes_mod, Nat.mod_eq_of_lt (unBE_lt bs)]

theorem byteOf_msbBits (x : Byte) : byteOf (msbBits x) = x := by
  revert x
  decide

/-- The packed bytes without their padding are the sequence (R126). -/
theorem unpackBits_packBytes (B : Bits) : unpackBits (packBytes B) (padCount B.length) = B := by
  rw [unpackBits, flatMap_packBytes, packBytes_length]
  exact List.take_left' (by unfold padCount; omega)

theorem padCount_toNat (n : Nat) : (BitVec.ofNat 8 (padCount n)).toNat = padCount n := by
  obtain ⟨-, hp8⟩ := padCount_range n
  exact (BitVec.toNat_ofNat _ _).trans (Nat.mod_eq_of_lt (by omega))

/-- The padding count makes up the last byte (R122). -/
theorem packed_bits_length (B : Bits) : 8 * (packBytes B).length = B.length + padCount B.length := by
  rw [packBytes_length, padCount]
  omega

/-- Settles O37: each conversion read back, and injectivity for the other direction. -/
theorem conversionsInvertEachOther : Obligations.ConversionsInvertEachOther :=
  ⟨fun v m h => ⟨beBytes_length v m, (unBE_beBytes_mod v m).trans (Nat.mod_eq_of_lt h)⟩, beBytes_unBE,
    fun v n h => ⟨bitsN_length v n, (val_bitsN_mod v n).trans (Nat.mod_eq_of_lt h)⟩, bitsN_val, byteOf_msbBits⟩

/-- UNPACK when every check passes. -/
theorem exec_unpack_of_bits {s : State} {B : Bits} (he : s.err = false) (hp : s.pv = true)
    (hpad : s.pad.toNat ≤ 8 * s.packbuf.length) (hB : unpackBits s.packbuf s.pad.toNat = B)
    (hcap : B.length ≤ s.cfg.bitCap) : exec .unpack s = .next ((s.setBits B).answered false 0) := by
  subst hB
  rw [unpackBits_length] at hcap
  rw [exec_unpack_of_clear he, if_pos hp, if_pos hpad, if_pos hcap]

/-- Settles O36: PACK writes bytes that unpack to BITSEQ (`unpackBits_packBytes`), so UNPACK's checks pass. -/
theorem unpackInvertsPack : Obligations.UnpackInvertsPack := by
  intro s he hcap
  have hlen := packed_bits_length s.bitseq
  have hpad := padCount_toNat s.bitseq.length
  obtain ⟨hp1, hp8⟩ := padCount_range s.bitseq.length
  refine ⟨_, _, exec_pack_of_clear he, exec_unpack_of_bits he rfl ?_ ?_ hcap, he, rfl, ?_⟩ <;>
    simp only [State.answered_pad, State.setPacked_pad, State.answered_packbuf, State.setPacked_packbuf, hpad]
  · omega
  · exact unpackBits_packBytes s.bitseq
  · omega

end Sys2Proof.Machine

/-! ## Family other: the tables and trees the block holds (R23, R24, R105 to R112, R143) -/

namespace Sys2Proof.Machine

section
variable {L : List SymEntry} {t : CodeTree} {ct : List CodeEntry}

/-- The leaves of a built tree are the symbols in list order (R105); the empty list has neither. -/
theorem leaves_of_build (hs : Sorted L) (h : build L = some t) : leaves t = L.map fun e => e.sym := by
  by_cases hne : L = []
  · subst hne
    cases h
    rfl
  · exact (buildWithin_shape hs hne h).1

/-- The tree of a SYMLIST has its symbols on its leaves and fewer levels than entries (R105, R107). -/
theorem treeOk_of_build (hL : SymlistOk L) (h : build L = some t) : TreeOk t where
  distinct := leaves_of_build hL.sorted h ▸ hL.distinct
  shallow := by
    by_cases hne : L = []
    · subst hne
      cases h
      exact Nat.zero_le _
    · obtain ⟨-, -, -, hdepth⟩ := buildWithin_shape hL.sorted hne h
      have hcount := hL.count
      omega

/-- The code of a Node's entry is a path of at least one bit, within the depth of the tree. -/
theorem extract_node_lengths {l r : CodeTree} {e : CodeEntry} (he : e ∈ extract (.node l r)) :
    1 ≤ e.code.length ∧ e.code.length ≤ depth (.node l r) := by
  obtain ⟨q, hcode, hleaf, hdepth⟩ := walk_mem (extract_node l r ▸ he)
  rw [hcode, List.nil_append]
  refine ⟨List.length_pos_of_ne_nil ?_, hdepth⟩
  rintro rfl
  cases hleaf

theorem extract_prefixFree (t : CodeTree) : (extract t).Pairwise PrefixFree := by
  cases t with
  | null => exact List.Pairwise.nil
  | leaf a => exact List.pairwise_singleton _ _
  | node l r => exact extract_node l r ▸ walk_prefixFree _ []

theorem tableOk_extract (h : TreeOk t) : TableOk (extract t) where
  distinct := extract_syms t ▸ h.distinct
  lengths := fun e he => by
    cases t with
    | null => cases he
    | leaf a =>
      obtain rfl := List.mem_singleton.1 he
      exact ⟨le_rfl, by simp⟩
    | node l r =>
      obtain ⟨hpos, hle⟩ := extract_node_lengths he
      exact ⟨hpos, hle.trans h.shallow⟩
  prefixFree := extract_prefixFree t
  count := by
    rw [← List.length_map (fun e : CodeEntry => e.sym), extract_syms]
    exact nodup_length_le h.distinct

/-- In a table that has a decode tree no code begins another: its entries are the leaves of one tree. -/
theorem prefixFree_of_decodeTree (hc : ∀ e ∈ ct, e.code ≠ []) (h : decodeTree ct = some t) :
    ct.Pairwise PrefixFree := by
  by_cases hne : ct = []
  · exact hne ▸ List.Pairwise.nil
  · obtain ⟨-, -, hperm⟩ := decodeTree_spec hne hc h
    exact (hperm.pairwise_iff fun hxy => ⟨hxy.2, hxy.1⟩).1 (walk_prefixFree t [])

/-- Extracting a decode tree lists the entries of its table (R112). -/
theorem extract_decodeTree_perm (hc : ∀ e ∈ ct, e.code ≠ []) (h : decodeTree ct = some t) : (extract t).Perm ct := by
  by_cases hne : ct = []
  · subst hne
    cases h
    exact .nil
  · obtain ⟨⟨l, r, rfl⟩, -, hperm⟩ := decodeTree_spec hne hc h
    exact hperm

/-- The decode tree of a table that meets R24 meets R23 and R107. -/
theorem treeOk_of_decodeTree (hok : TableOk ct) (h : decodeTree ct = some t) : TreeOk t where
  distinct := by
    have hperm := (extract_decodeTree_perm hok.code_ne_nil h).map fun e => e.sym
    rw [extract_syms] at hperm
    exact hperm.nodup_iff.2 hok.distinct
  shallow := by
    by_cases hne : ct = []
    · subst hne
      cases h
      exact Nat.zero_le _
    · rw [decodeTree_eq_insertAll hne] at h
      exact depth_insertAll h (by simp [depth]) fun e he => (hok.lengths e he).2

end

/-! ### What a parse that succeeds gives (R141 to R145) -/

section
variable {b P : List Byte} {ct : List CodeEntry} {t : CodeTree} {p : Byte}

theorem tableOk_of_parseContainer (h : parseContainer b = .ok (ct, t, P, p)) : TableOk ct := by
  have htree := decodeTree_of_parseContainer h
  rcases parseContainer_ok h with ⟨rfl, -, -, -⟩ | ⟨n, rest, -, hn, hes, -, -, -⟩
  · exact ⟨List.nodup_nil, by simp, List.Pairwise.nil, Nat.zero_le _⟩
  · obtain ⟨es, hct, hlen, -, hlengths, hnodup, -⟩ := parseEntries_ok hes
    rw [List.nil_append] at hct
    subst hct
    have hne : ∀ e ∈ ct, e.code ≠ [] := fun e he => List.ne_nil_of_length_pos (hlengths e he).1
    exact ⟨hnodup List.nodup_nil, hlengths, prefixFree_of_decodeTree hne htree, by omega⟩

theorem pad_of_parseContainer (h : parseContainer b = .ok (ct, t, P, p)) :
    p.toNat ≤ 8 * P.length ∧ ((1 ≤ p.toNat ∧ p.toNat ≤ 8) ∨ (p = 0 ∧ P = [])) := by
  rcases parseContainer_ok h with ⟨-, -, rfl, rfl⟩ | ⟨-, -, -, -, -, hp1, hp8, hfit⟩
  · exact ⟨Nat.zero_le _, .inr ⟨rfl, rfl⟩⟩
  · exact ⟨hfit, .inl ⟨hp1, hp8⟩⟩

end

/-- Settles O47, by `decodeTree_of_parseContainer`, `tableOk_of_parseContainer` and `treeOk_of_decodeTree`. -/
theorem parsedTreeIsTheDecodeTree : Obligations.ParsedTreeIsTheDecodeTree := fun _ _ _ _ _ h =>
  have htree := decodeTree_of_parseContainer h
  have htable := tableOk_of_parseContainer h
  ⟨htree, htable, treeOk_of_decodeTree htable htree⟩

/-- Settles O32, by `tableOk_extract`. -/
theorem extractedTableIsPrefixFree : Obligations.ExtractedTableIsPrefixFree := fun _ => tableOk_extract

/-- Settles O57, by `extract_decodeTree_perm`. -/
theorem extractOfADecodeTreeGivesTheTable : Obligations.ExtractOfADecodeTreeGivesTheTable :=
  fun _ _ hok => extract_decodeTree_perm hok.code_ne_nil

end Sys2Proof.Machine

/-! ## Family other: the tree and its table give each other (R105, R112, R143, R147, R164) -/

namespace Sys2Proof.Machine

section
variable {L : List SymEntry} {t : CodeTree} {ct : List CodeEntry}

theorem mem_walk_iff_follow {q : Bits} {a : Byte} : ⟨a, q⟩ ∈ walk t [] ↔ follow t q = .leaf a := by
  refine ⟨fun h => ?_, mem_walk_of_follow (p := [])⟩
  obtain ⟨q', rfl, hleaf, -⟩ := walk_mem h
  exact hleaf

/-- A Node with no null child is the only live tree whose leaves have those paths (R147). -/
theorem decodeTree_extract {l r : CodeTree} (hfull : Full (.node l r)) :
    decodeTree (extract (.node l r)) = some (.node l r) := by
  have hcodes : ∀ e ∈ extract (.node l r), e.code ≠ [] := fun e he =>
    List.ne_nil_of_length_pos (extract_node_lengths he).1
  have hlive := live_of_full hfull
  have hne : extract (.node l r) ≠ [] := by
    obtain ⟨e, he⟩ := exists_walk_of_live hlive nofun []
    exact List.ne_nil_of_mem he
  obtain ⟨t, ht⟩ := decodeTree_total hcodes (extract_prefixFree _)
  obtain ⟨-, hlive', hperm⟩ := decodeTree_spec hne hcodes ht
  rw [ht, live_ext hlive' hlive fun q a => by
    rw [← mem_walk_iff_follow, ← mem_walk_iff_follow, hperm.mem_iff, extract_node]]

/-- A built tree of two or more symbols is a Node (R102), so its depth is at least 1. -/
theorem one_le_depth_of_build (hn : 2 ≤ L.length) (h : build L = some t) : 1 ≤ depth t := by
  obtain ⟨l, r, -, -, rfl⟩ := (build_eq_some_iff hn).1 h
  exact Nat.le_add_left 1 _

/-- In the decode tree of a table an insertion conflicts exactly with a code that begins the new one or
goes on from it. -/
theorem insertPath_decodeTree_none_iff (hne : ct ≠ []) (hcodes : ∀ e ∈ ct, e.code ≠ []) (h : decodeTree ct = some t)
    (c : Bits) (s : Byte) : insertPath t c s = none ↔ ∃ e ∈ ct, e.code <+: c ∨ c <+: e.code := by
  obtain ⟨-, hlive, hperm⟩ := decodeTree_spec hne hcodes h
  simp only [insertPath_none_iff hlive c [] s, hperm.mem_iff, List.nil_append]

/-- Walking the decode tree on the code of a symbol emits the symbol and goes on from the root (R163, R164). -/
theorem decodeBits_encodeAll_cons (hcodes : ∀ e ∈ ct, e.code ≠ []) (h : decodeTree ct = some t) {b : Byte}
    (hb : b ∈ ct.map fun e => e.sym) (d : List Byte) :
    decodeBits t (encodeAll ct (b :: d)) = (decodeBits t (encodeAll ct d)).map (b :: ·) := by
  obtain ⟨c, hc⟩ := lookupCode_isSome hb
  have hmem := lookupCode_mem hc
  obtain ⟨⟨l, r, rfl⟩, -, -⟩ := decodeTree_spec (List.ne_nil_of_mem hmem) hcodes h
  rw [encodeAll_cons, hc, Option.getD_some, decodeBits_path (follow_decodeTree hcodes h hmem)]

theorem decodeBits_encodeAll (hcodes : ∀ e ∈ ct, e.code ≠ []) (h : decodeTree ct = some t) {d : List Byte}
    (hd : ∀ b ∈ d, b ∈ ct.map fun e => e.sym) : decodeBits t (encodeAll ct d) = .ok d := by
  induction d with
  | nil => rfl
  | cons b d ih =>
    obtain ⟨hb, hd⟩ := List.forall_mem_cons.1 hd
    rw [decodeBits_encodeAll_cons hcodes h hb, ih hd]
    rfl

end

/-- Settles O29: the shape by `buildWithin_shape`, the least depth by `one_le_depth_of_build`. -/
theorem builtTreeHasOneLeafPerSymbol : Obligations.BuiltTreeHasOneLeafPerSymbol := by
  intro L t hs hne h
  obtain ⟨hleaves, hinner, hfull, hdepth⟩ := buildWithin_shape hs hne h
  exact ⟨hleaves, hinner, hfull, fun hn => ⟨one_le_depth_of_build hn h, hdepth⟩⟩

/-- Settles O46: a conflict by `insertPath_decodeTree_none_iff`, the longer table by `decodeTree_snoc`. -/
theorem insertConflictsExactlyOnPrefixes : Obligations.InsertConflictsExactlyOnPrefixes :=
  fun _ _ c s hne hcodes _ h =>
    ⟨insertPath_decodeTree_none_iff hne hcodes h c s, (decodeTree_snoc hne h ⟨s, c⟩).symm⟩

/-- Settles O54: the decode tree by `decodeTree_total`, the walk by `decodeBits_encodeAll`. -/
theorem decodingInvertsEncoding : Obligations.DecodingInvertsEncoding := by
  intro ct d hok hd
  obtain ⟨D, hD⟩ := decodeTree_total hok.code_ne_nil hok.prefixFree
  exact ⟨D, hD, decodeBits_encodeAll hok.code_ne_nil hD hd⟩

/-- Settles O56: a Node by `decodeTree_extract`, a single leaf and no tree by evaluation. -/
theorem decodeTreeOfABuiltTreeIsTheTree : Obligations.DecodeTreeOfABuiltTreeIsTheTree :=
  ⟨fun _ _ => decodeTree_extract, fun _ => rfl, rfl⟩

end Sys2Proof.Machine

/-! ## Family other: the invariant of every reachable state (R35) -/

namespace Sys2Proof.Machine

/-- The bit region of a parse is what is left of the blob (R144). -/
theorem region_length_le_of_parseContainer {b P : List Byte} {ct : List CodeEntry} {t : CodeTree} {p : Byte}
    (h : parseContainer b = .ok (ct, t, P, p)) : P.length ≤ b.length := by
  match b with
  | [] | [_] | [_, _] => cases h
  | n1 :: n0 :: q :: rest =>
    simp only [parseContainer, parseRegion] at h
    split_ifs at h
    · cases h
      exact Nat.zero_le _
    · split at h
      · cases h
      · next hes =>
        split_ifs at h
        cases h
        obtain ⟨-, -, -, -, -, -, hle⟩ := parseEntries_ok hes
        exact hle.trans (by simp only [List.length_cons]; omega)

/-- Everything an error can do: it is dropped, or the command fails with it (R188, R189). -/
theorem raise_cases (c : Cause) (s : State) :
    (s.err = true ∧ raise c s = .next (s.answered false 0)) ∨ (s.err = false ∧ raise c s = .next (s.failed c)) := by
  rcases he : s.err with _ | _
  · exact .inr ⟨rfl, raise_of_clear he c⟩
  · exact .inl ⟨rfl, raise_of_err he c⟩

theorem causeClass_ne_zero (c : Cause) : causeClass c ≠ 0 := by cases c <;> decide

/-- A push that passes SYMPUSH's checks keeps SYMLIST distinct, sorted and at most 256 long (R22, R101). -/
theorem SymlistOk.push {L : List SymEntry} (hL : SymlistOk L) {sym : Byte} {freq : Freq}
    (hk : symKnown sym L = false) (ha : aboveLast freq L = false) : SymlistOk (L ++ [SymEntry.mk sym freq]) := by
  have hnew : sym ∉ L.map fun e => e.sym := by
    rw [List.mem_map, ← symKnown_iff, hk]
    exact nofun
  have hdistinct : ((L ++ [SymEntry.mk sym freq]).map fun e => e.sym).Nodup := by
    rw [List.map_append, List.nodup_append_comm]
    exact List.nodup_cons.2 ⟨hnew, hL.distinct⟩
  refine ⟨hdistinct, List.pairwise_append.2 ⟨hL.sorted, List.pairwise_singleton _ _, fun a hmem x hx => ?_⟩, ?_⟩
  · obtain rfl := List.mem_singleton.1 hx
    obtain ⟨init, last, rfl⟩ := (List.eq_nil_or_concat' L).resolve_left (List.ne_nil_of_mem hmem)
    have hlast : freq.toNat ≤ last.freq.toNat := by simpa [aboveLast] using ha
    rcases List.mem_append.1 hmem with hinit | hlast'
    · exact hlast.trans ((List.pairwise_append.1 hL.sorted).2.2 a hinit last (by simp))
    · obtain rfl := List.mem_singleton.1 hlast'
      exact hlast
  · simpa using nodup_length_le hdistinct

theorem advanceOut_outpos_toNat {s : State} (h : s.outpos.toNat + 1 < 2 ^ 32) :
    s.advanceOut.outpos.toNat = s.outpos.toNat + 1 := BitVec.toNat_add_of_lt h

namespace BlockInv

variable {s t : State}

/-- The events and the responses are no part of the invariant. -/
theorem withHost (h : BlockInv s) (events : List HostEvent) (responses : List Word) :
    BlockInv { s with events := events, responses := responses } := { h with }

theorem answered (h : BlockInv s) (dvalid : Bool) (data : Data) : BlockInv (s.answered dvalid data) := { h with }

theorem failed (h : BlockInv s) (c : Cause) : BlockInv (s.failed c) :=
  { h with
    errZero := iff_of_false nofun fun hz => causeClass_ne_zero c hz.1
    errCause := fun _ => ⟨c, rfl, rfl⟩ }

theorem resetWith {c : Config} (hc : c.Legal) : BlockInv (State.resetWith c) where
  cfgLegal := hc
  errZero := iff_of_true rfl ⟨rfl, rfl⟩
  errCause := nofun
  symlistOk := ⟨List.nodup_nil, List.Pairwise.nil, Nat.zero_le _⟩
  treeOk := ⟨List.nodup_nil, Nat.zero_le _⟩
  tableOk := ⟨List.nodup_nil, nofun, List.Pairwise.nil, Nat.zero_le _⟩
  noTree := fun _ => rfl
  noTable := fun _ => rfl
  noPacked := fun _ => ⟨rfl, rfl⟩
  padFits := Nat.zero_le _
  padRange := .inr ⟨rfl, rfl⟩
  bitsFit := Nat.zero_le _
  packedFits := Nat.zero_le _
  inFits := Nat.zero_le _
  outFits := Nat.zero_le _
  outposFits := Nat.zero_le _

theorem clearAll (h : BlockInv s) : BlockInv s.clearAll := (resetWith h.cfgLegal).withHost s.events s.responses

theorem setPacked (h : BlockInv s) : BlockInv
    (s.setPacked (packBytes s.bitseq) (BitVec.ofNat 8 (padCount s.bitseq.length))) := by
  have hpad := padCount_toNat s.bitseq.length
  have hrange := padCount_range s.bitseq.length
  have hlen := packed_bits_length s.bitseq
  have hbits := h.bitsFit
  exact { h with
    noPacked := nofun
    padFits := by
      rw [State.setPacked_pad, State.setPacked_packbuf, hpad]
      omega
    padRange := .inl (by rwa [State.setPacked_pad, hpad])
    packedFits := by
      rw [State.setPacked_packbuf, State.setPacked_cfg, ceil8]
      omega }

theorem setOut (h : BlockInv s) {out : List Byte} (hout : out.length ≤ s.cfg.outCap) : BlockInv (s.setOut out) :=
  { h with outFits := hout, outposFits := Nat.zero_le _ }

theorem setBits (h : BlockInv s) {B : Bits} (hB : B.length ≤ s.cfg.bitCap) : BlockInv (s.setBits B) :=
  { h with bitsFit := hB }

theorem commitContainer (h : BlockInv s) {ct : List CodeEntry} {x : CodeTree} {P : List Byte} {p : Byte}
    (hp : parseContainer s.inbuf = .ok (ct, x, P, p)) : BlockInv (s.commitContainer ct x P p) :=
  have htable := tableOk_of_parseContainer hp
  { h with
    treeOk := treeOk_of_decodeTree htable (decodeTree_of_parseContainer hp)
    tableOk := htable
    noTree := nofun
    noTable := nofun
    noPacked := nofun
    padFits := (pad_of_parseContainer hp).1
    padRange := (pad_of_parseContainer hp).2
    packedFits := ((region_length_le_of_parseContainer hp).trans h.inFits).trans (le_max_right _ _)
    inFits := Nat.zero_le _ }

theorem outbuf_lt (h : BlockInv s) : s.outbuf.length < 2 ^ 32 := by
  have hout := h.outFits
  obtain ⟨-, ⟨-, hcap⟩, -⟩ := h.cfgLegal
  omega

/-- OUTPOS has room for one more while a byte is left, because OUT is shorter than 2^32 (R7). -/
theorem advanceOut (h : BlockInv s) {b : Byte} (hb : s.outbuf[s.outpos.toNat]? = some b) : BlockInv s.advanceOut := by
  obtain ⟨hlt, -⟩ := List.getElem?_eq_some_iff.1 hb
  have hout := h.outbuf_lt
  exact { h with outposFits := (advanceOut_outpos_toNat (by omega)).trans_le hlt }

/-- The effect of every command keeps the invariant. -/
theorem of_effect {i : Instr} (h : BlockInv s) (hi : Effect i s t) : BlockInv t := by
  cases i with
  | nop => obtain rfl := hi; exact h
  | clear => obtain rfl := hi; exact h.clearAll
  | rdreg index => obtain ⟨-, rfl⟩ := hi; exact h
  | sympush sym freq =>
    obtain ⟨hk, ha, rfl⟩ := hi
    exact { h with symlistOk := h.symlistOk.push hk ha }
  | build =>
    obtain ⟨x, hx, rfl⟩ := hi
    exact { h with treeOk := treeOk_of_build h.symlistOk hx, noTree := nofun }
  | extract =>
    obtain ⟨-, rfl⟩ := hi
    exact { h with tableOk := tableOk_extract h.treeOk, noTable := nofun }
  | pack => obtain rfl := hi; exact h.setPacked
  | unpack =>
    obtain ⟨-, -, hcap, rfl⟩ := hi
    exact h.setBits (unpackBits_length.trans_le hcap)
  | bitclr => obtain rfl := hi; exact h.setBits (Nat.zero_le _)
  | ser =>
    obtain ⟨-, -, blob, -, hfit, rfl⟩ := hi
    exact h.setOut hfit
  | deser =>
    obtain ⟨ct, x, P, p, hp, rfl⟩ := hi
    exact h.commitContainer hp
  | inpush b =>
    obtain ⟨hroom, rfl⟩ := hi
    exact { h with inFits := by simpa using hroom }
  | outpop =>
    obtain ⟨b, hb, rfl⟩ | ⟨-, rfl⟩ := hi
    · exact h.advanceOut hb
    · exact h
  | enc sym =>
    obtain ⟨-, c, -, hroom, rfl⟩ := hi
    exact h.setBits (by simpa using hroom)
  | dec =>
    obtain ⟨-, D, out, -, -, hfit, rfl⟩ := hi
    exact h.setOut hfit

theorem of_exec {i : Instr} (h : BlockInv s) (hi : exec i s = .next t) : BlockInv t := by
  rcases exec_next_cases hi with ⟨u, v, d, hu, rfl⟩ | ⟨-, rfl⟩ | ⟨-, c, -, rfl⟩
  · exact (h.of_effect hu).answered v d
  · exact h.answered false 0
  · exact h.failed c

theorem of_raise {c : Cause} (h : BlockInv s) (hr : raise c s = .next t) : BlockInv t := by
  rcases raise_cases c s with ⟨-, he⟩ | ⟨-, he⟩ <;> rw [he] at hr <;> cases hr
  · exact h.answered false 0
  · exact h.failed c

end BlockInv

/-- Settles O3: a step waits, executes or rejects a command, or resets, on the state with the event taken, and the
invariant does not speak of the events. -/
theorem stepKeepsInvariant : Obligations.StepKeepsInvariant := by
  intro s s' h hs
  rcases step_cases s with ⟨-, he⟩ | ⟨w, rest, i, -, -, he⟩ | ⟨w, rest, r, -, -, he⟩ | ⟨rest, -, he⟩ |
      ⟨w, rest, -, he⟩ <;>
    rw [he] at hs
  · cases hs
    exact h
  · exact (h.withHost rest s.responses).of_exec hs
  · exact (h.withHost rest s.responses).of_raise hs
  · cases hs
    exact (h.withHost rest s.responses).clearAll
  · cases hs

/-- Settles O2, by `BlockInv.resetWith`; the standard capacities are legal. -/
theorem resetMeetsInvariant : Obligations.ResetMeetsInvariant :=
  ⟨BlockInv.resetWith (by decide), fun _ => BlockInv.resetWith⟩

end Sys2Proof.Machine

/-! ## Family other: what a step does with the host's next event, and the registers under the invariant -/

namespace Sys2Proof.Machine

section
variable {s : State} {i : Instr}

/-- With an error recorded a command is CLEAR, or it changes nothing but the responses (R189). -/
theorem exec_of_err_cases (he : s.err = true) (i : Instr) :
    i = .clear ∨ ∃ dvalid data, exec i s = .next (s.answered dvalid data) := by
  by_cases hc : i = .clear
  · exact .inl hc
  refine .inr ?_
  by_cases hn : i = .nop
  · subst hn
    exact ⟨false, 0, succeed_eq s⟩
  by_cases hr : ∃ index : Byte, i = .rdreg index ∧ index.toNat ≤ 10
  · obtain ⟨index, rfl, hi⟩ := hr
    obtain ⟨v, hv⟩ := Option.isSome_iff_exists.1 ((regValue_isSome_iff s index).2 hi)
    exact ⟨true, v, exec_rdreg_of_value hv⟩
  · exact ⟨false, 0, exec_of_err he i hn hc fun index hi => not_le.1 fun hle => hr ⟨index, hi, hle⟩⟩

/-- Under the invariant SYMLIST has a tree and CTAB a decode tree, so no command ends in a fault (R105, R143). -/
theorem BlockInv.exec_completes (h : BlockInv s) (i : Instr) : ∃ t, exec i s = .next t := by
  rcases he : s.err with _ | _
  · rcases exec_of_clear he i with ⟨c, -, hx⟩ | ⟨t, v, d, -, -, hx⟩ | ⟨-, hb, -⟩ | ⟨-, -, hD, -⟩
    · exact ⟨_, hx⟩
    · exact ⟨_, hx⟩
    · obtain ⟨t, ht⟩ := build_total h.symlistOk.sorted
      cases hb.symm.trans ht
    · obtain ⟨t, ht⟩ := decodeTree_total h.tableOk.code_ne_nil h.tableOk.prefixFree
      cases hD.symm.trans ht
  · rcases exec_of_err_cases he i with rfl | ⟨v, d, hx⟩
    · exact ⟨_, succeed_eq s.clearAll⟩
    · exact ⟨_, hx⟩

end

/-- Settles O4: commands complete by `BlockInv.exec_completes`, on the state with the event taken; the two faults are
the branches of BUILD and DEC without a tree. -/
theorem stepCompletesUnlessOverlapped : Obligations.StepCompletesUnlessOverlapped := by
  refine ⟨fun s h => ?_, fun s he hb => ?_, fun s he hcv hD => ?_⟩
  · rcases step_cases s with ⟨-, hs⟩ | ⟨w, rest, i, -, -, hs⟩ | ⟨w, rest, r, -, -, hs⟩ | ⟨rest, -, hs⟩ |
      ⟨w, rest, hev, hs⟩
    · exact .inl ⟨_, hs⟩
    · obtain ⟨t, ht⟩ := (h.withHost rest s.responses).exec_completes i
      exact .inl ⟨t, hs.trans ht⟩
    · rcases raise_cases (rejectCause r) { s with events := rest } with ⟨-, hr⟩ | ⟨-, hr⟩ <;>
        exact .inl ⟨_, hs.trans hr⟩
    · exact .inl ⟨_, hs⟩
    · exact .inr ⟨w, rest, hev, hs⟩
  · simp only [exec, execBuild, unlessErr_of_clear he, hb]
  · simp only [exec, execDec, unlessErr_of_clear he, hcv, require_true, hD]

/-- Settles O20: a command other than CLEAR answers in the state it found (`exec_of_err_cases`), and only one word
decodes to CLEAR (`encode_of_decode`). -/
theorem onlyClearOrResetLeavesTheErrorState : Obligations.OnlyClearOrResetLeavesTheErrorState := by
  intro s t herr hs
  rcases step_cases s with ⟨-, he⟩ | ⟨w, rest, i, hev, hd, he⟩ | ⟨w, rest, r, -, -, he⟩ |
      ⟨rest, hev, he⟩ | ⟨w, rest, -, he⟩ <;>
    rw [he] at hs
  · cases hs
    exact .inl ⟨herr, rfl, rfl⟩
  · rcases exec_of_err_cases (s := { s with events := rest }) herr i with rfl | ⟨v, d, hx⟩
    · cases hs
      exact .inr (.inl ⟨rest, by rw [hev, ← encode_of_decode hd]; rfl, rfl⟩)
    · rw [hx] at hs
      cases hs
      exact .inl ⟨herr, rfl, rfl⟩
  · rw [raise_of_err (s := { s with events := rest }) herr] at hs
    cases hs
    exact .inl ⟨herr, rfl, rfl⟩
  · cases hs
    exact .inr (.inr ⟨rest, hev, rfl⟩)
  · cases hs

/-- Settles O5, by `step_of_command`; the word `withFetchWord` issues is the first event and has no bits above 64. -/
theorem stepRunsDecodedCommand : Obligations.StepRunsDecodedCommand := by
  refine ⟨fun s w rest i hev hd => ?_, fun s w i hd => ?_⟩
  · rw [step_of_command hev, stepCommand, hd]
  · have hw : s.withFetchWord 64 w.toNat = s.issue w := by
      rw [State.withFetchWord, Nat.mod_eq_of_lt w.isLt, BitVec.ofNat_toNat, BitVec.setWidth_eq]
    rw [hw, step_of_command (s.issue_events w), stepCommand, hd]
    rfl

/-- Settles O6: CLEAR answers in `clearAll`, and the platform's reset is `clearAll` on the state with the event
taken. -/
theorem clearAndResetGiveResetState : Obligations.ClearAndResetGiveResetState := fun s =>
  ⟨by decide, succeed_eq s.clearAll, fun _ => step_of_reset⟩

/-- Settles O7: two of the cases of a step. -/
theorem waitHoldsTheStateAndOverlapIsRefused : Obligations.WaitHoldsTheStateAndOverlapIsRefused := fun s =>
  ⟨fun h => by rw [step, nextEvent_nil h], fun w rest h => by rw [step, nextEvent_cons h]⟩

/-! ### The registers (R31, R35) -/

section
variable {s : State} {index : Byte}

theorem rdregReports_of_value {v : Data} (h : regValue s index = some v) : RdregReports s index v.toNat :=
  ⟨v, h, exec_rdreg_of_value h, rfl⟩

/-- A count below 2^32 is not cut. -/
theorem rdregReports_of_count {n : Nat} (h : regValue s index = some (BitVec.ofNat 32 n)) (hn : n < 2 ^ 32) :
    RdregReports s index n :=
  ⟨_, h, exec_rdreg_of_value h, (BitVec.toNat_ofNat _ _).trans (Nat.mod_eq_of_lt hn)⟩

/-- A shorter value in a register of 32 bits is not cut. -/
theorem rdregReports_of_zeroExtend {k : Nat} {x : BitVec k} (hk : k ≤ 32)
    (h : regValue s index = some (x.zeroExtend 32)) : RdregReports s index x.toNat :=
  ⟨_, h, exec_rdreg_of_value h, BitVec.toNat_setWidth_of_le hk⟩

theorem maxLen_le {ct : List CodeEntry} (h : TableOk ct) : maxLen ct ≤ 255 := by
  by_cases hne : ct = []
  · subst hne
    exact Nat.zero_le _
  · obtain ⟨e, he, heq⟩ := exists_length_eq_maxLen hne
    exact heq ▸ (h.lengths e he).2

/-- The leaf count is the upper half of TREEINFO. -/
theorem treeInfo_div (t : CodeTree) (h : (leaves t).length < 2 ^ 16) :
    (treeInfo t).toNat / 2 ^ 16 = (leaves t).length := by
  have hsym := (rootSym t).isLt
  have hkind := (rootKind t).isLt
  rw [treeInfo_toNat]
  omega

end

/-- Settles O24: under the invariant every count fits its register. -/
theorem registerCountsAreExact : Obligations.RegisterCountsAreExact := by
  intro s h
  obtain ⟨⟨-, hin⟩, ⟨-, hout⟩, -, hbit⟩ := h.cfgLegal
  have hsymlist := h.symlistOk.count
  have hctab := h.tableOk.count
  have hbitseq := h.bitsFit
  have hpackbuf : s.packbuf.length < 2 ^ 32 := by
    have hle := h.packedFits
    rw [ceil8] at hle
    omega
  have hinbuf := h.inFits
  have houtbuf := h.outFits
  have hleaves := nodup_length_le h.treeOk.distinct
  have hmax := maxLen_le h.tableOk
  exact ⟨rdregReports_of_zeroExtend (by omega) rfl, rdregReports_of_count rfl (by omega),
    rdregReports_of_count rfl (by omega), rdregReports_of_count rfl (by omega), rdregReports_of_count rfl hpackbuf,
    rdregReports_of_zeroExtend (by omega) rfl, rdregReports_of_count rfl (by omega),
    rdregReports_of_count rfl (by omega), rdregReports_of_value rfl,
    ⟨_, rdregReports_of_value rfl, treeInfo_div s.tree (by omega)⟩, rdregReports_of_count rfl (by omega), hleaves, hmax⟩

end Sys2Proof.Machine

/-! ## Family other: fixed tables and expansions (R55, R70 to R79, R186) -/

namespace Sys2Proof.Machine

/-- Settles O11, by `wordOf_toNat`. -/
theorem encodingIsShiftedFields : Obligations.EncodingIsShiftedFields := fun _ => wordOf_toNat _ _ _

/-- Settles O14: both directions as numbers, byte by byte. -/
theorem linkCarriesBigEndianBytes : Obligations.LinkCarriesBigEndianBytes := by
  refine fun w => ⟨rfl, ?_, congrArg some (BitVec.eq_of_toNat_eq ?_)⟩
  all_goals
    have hw := w.isLt
    simp only [linkBytes, unBE, List.foldl_cons, List.foldl_nil, toNat_append_lt, BitVec.extractLsb'_toNat,
      Nat.shiftRight_eq_div_pow]
    omega

/-- Settles O12, by evaluating the decoder on the seven words. -/
theorem tableWordsDecodeToTheirCommands : Obligations.TableWordsDecodeToTheirCommands :=
  ⟨rfl, rfl, rfl, rfl, rfl, rfl, rfl⟩

/-- Settles O15: the expansions are maps and literals. -/
theorem pseudoInstructionsExpandAsTheTableSays : Obligations.PseudoInstructionsExpandAsTheTableSays :=
  ⟨fun _ _ _ => rfl, rfl, fun _ _ => rfl, rfl, fun _ _ => rfl, rfl, by decide, by decide, by decide⟩

/-- Settles O17, by evaluating the two tables on the 29 causes. -/
theorem causeCodesFollowTheTable : Obligations.CauseCodesFollowTheTable := by
  unfold Obligations.CauseCodesFollowTheTable
  decide

end Sys2Proof.Machine

/-! ## Family other: containers written and read back (R86, R135 to R147) -/

namespace Sys2Proof.Machine

section
variable {ct : List CodeEntry} {P blob : List Byte} {p : Byte}

theorem serialize_nil (P : List Byte) (p : Byte) :
    serialize [] P p = if 8 * P.length = p.toNat then .ok [0, 0, 0] else .error .serEmptyWithBits := rfl

/-- A blob of a non-empty table: the padding is in its range, and the blob is header, entries and packed bytes. -/
theorem serialize_ok (hne : ct ≠ []) (h : serialize ct P p = .ok blob) :
    (1 ≤ p.toNat ∧ p.toNat ≤ 8) ∧ blob = beBytes ct.length 2 ++ [p] ++ ct.flatMap entryBytes ++ P := by
  cases ct with
  | nil => exact absurd rfl hne
  | cons e es =>
    simp only [serialize] at h
    split_ifs at h with hc
    cases h
    exact ⟨hc.2.1, rfl⟩

/-- A non-empty table that the format cannot hold (R138). -/
theorem serialize_of_unstorable (hne : ct ≠ []) (h : 65535 < ct.length ∨ p.toNat < 1 ∨ 8 < p.toNat ∨
    ∃ e ∈ ct, e.code.length < 1 ∨ 255 < e.code.length) (P : List Byte) : serialize ct P p = .error .serRange := by
  cases ct with
  | nil => exact absurd rfl hne
  | cons e es =>
    refine if_neg fun ⟨hcount, ⟨hp1, hp8⟩, hcodes⟩ => ?_
    rcases h with h | h | h | ⟨x, hx, h⟩
    · omega
    · omega
    · omega
    · have hlen := of_decide_eq_true (List.all_eq_true.1 hcodes x hx)
      omega

theorem serialize_length (h : serialize ct P p = .ok blob) : blob.length = blobLength ct P := by
  by_cases hne : ct = []
  · subst hne
    rw [serialize_nil] at h
    split_ifs at h
    cases h
    rfl
  · obtain ⟨-, rfl⟩ := serialize_ok hne h
    rw [blobLength, if_neg hne]
    simp only [List.length_append, beBytes_length, List.length_singleton, flatMap_entryBytes_length]

/-- Reading a header that counts 1 to 256 entries, with a padding in its range (R141). -/
theorem parseContainer_beBytes {n : Nat} (hn : 1 ≤ n) (hn' : n ≤ 256) (hp : 1 ≤ p.toNat ∧ p.toNat ≤ 8)
    (rest : List Byte) : parseContainer (beBytes n 2 ++ [p] ++ rest) =
      (parseEntries n rest [] (.node .null .null)).bind fun (ct, t, P) => parseRegion p ct t P := by
  obtain ⟨n1, n0, hbytes⟩ := List.length_eq_two.1 (beBytes_length n 2)
  have hval : 256 * n1.toNat + n0.toNat = n := by
    rw [← unBE_pair, ← hbytes, unBE_beBytes_mod]
    exact Nat.mod_eq_of_lt (by omega)
  rw [hbytes]
  exact (parseContainer_of_header (by omega) (by omega) hp.1 hp.2 rest).trans (by rw [hval])

/-- Reading header, entries and any bit region of a table that meets R24: the region check decides (R144). -/
theorem parseContainer_entries (hok : TableOk ct) (hne : ct ≠ []) (hp : 1 ≤ p.toNat ∧ p.toNat ≤ 8) {t : CodeTree}
    (ht : decodeTree ct = some t) (P : List Byte) :
    parseContainer (beBytes ct.length 2 ++ [p] ++ (ct.flatMap entryBytes ++ P)) = parseRegion p ct t P := by
  rw [parseContainer_beBytes (List.length_pos_of_ne_nil hne) hok.count hp,
    parseEntries_entries (pre := []) P hok.lengths hok.distinct (decodeTree_eq_insertAll hne ▸ ht)]
  rfl

/-- A cut after the header keeps the header whole. -/
theorem take_header_append (n : Nat) (p : Byte) (rest : List Byte) (k : Nat) :
    (beBytes n 2 ++ [p] ++ rest).take (3 + k) = beBytes n 2 ++ [p] ++ rest.take k := by
  rw [List.take_append, List.take_of_length_le (by simp)]
  simp

end

/-- Settles O40, by `serialize_length`. -/
theorem blobSizeFollowsTheFormula : Obligations.BlobSizeFollowsTheFormula := fun _ _ _ _ => serialize_length

/-- Settles O55: the empty table's blob is three zero bytes; of any other table `parseContainer_entries` reads the blob
back, and the bit region is long enough for the padding. -/
theorem containerRoundTrip : Obligations.ContainerRoundTrip := by
  intro ct P p blob hok hfit h
  obtain ⟨t, ht⟩ := decodeTree_total hok.code_ne_nil hok.prefixFree
  refine ⟨t, ht, ?_⟩
  by_cases hne : ct = []
  · subst hne
    rw [serialize_nil] at h
    split_ifs at h
    cases h
    cases ht
    rfl
  · obtain ⟨hp, rfl⟩ := serialize_ok hne h
    rw [if_neg hne, List.append_assoc _ _ P, parseContainer_entries hok hne hp ht, parseRegion, if_neg hfit.not_gt]

/-- Settles O58: a cut in the header is too short, a cut in the entries is `parseEntries_truncated`, and after the
entries no byte is left for the padding. -/
theorem truncatedTableRegionIsMalformed : Obligations.TruncatedTableRegionIsMalformed := by
  intro ct P p blob hok hne h
  obtain ⟨t, ht⟩ := decodeTree_total hok.code_ne_nil hok.prefixFree
  obtain ⟨hp, rfl⟩ := serialize_ok hne h
  have hcut (k : Nat) (hk : k ≤ tableLength ct) :
      (beBytes ct.length 2 ++ [p] ++ ct.flatMap entryBytes ++ P).take (3 + k) =
        beBytes ct.length 2 ++ [p] ++ (ct.flatMap entryBytes).take k := by
    rw [List.append_assoc _ _ P, take_header_append, List.take_append_of_le_length]
    rwa [flatMap_entryBytes_length]
  refine ⟨fun n hn => ?_, ?_⟩
  · rcases lt_or_ge n 3 with hlt | hge
    · exact ⟨.truncHeader, by simp, parseContainer_short (by rw [List.length_take]; omega)⟩
    · obtain ⟨k, rfl⟩ := Nat.exists_eq_add_of_le hge
      rw [hcut k (by omega), parseContainer_beBytes (List.length_pos_of_ne_nil hne) hok.count hp]
      rcases parseEntries_truncated (pre := []) hok.lengths hok.distinct (decodeTree_eq_insertAll hne ▸ ht)
        (Nat.lt_of_add_lt_add_left hn) with hx | hx <;> rw [hx]
      · exact ⟨.truncEntry, by simp, rfl⟩
      · exact ⟨.truncCode, by simp, rfl⟩
  · have hregion := parseContainer_entries hok hne hp ht []
    rw [List.append_nil] at hregion
    rw [hcut _ le_rfl, List.take_of_length_le (flatMap_entryBytes_length ct).le, hregion, parseRegion]
    exact if_pos hp.1

/-! ### SER's checks (R135, R137, R138) -/

section
variable {s : State} {c : Cause} {blob : List Byte}

theorem exec_ser_of_noTable (he : s.err = false) (hcv : s.cv = false) : exec .ser s = .next (s.failed .noTable) := by
  simp only [exec, execSer, unlessErr_of_clear he, hcv, require_false, raise_of_clear he]

theorem exec_ser_of_noPacked (he : s.err = false) (hcv : s.cv = true) (hpv : s.pv = false) :
    exec .ser s = .next (s.failed .noPacked) := by
  simp only [exec, execSer, unlessErr_of_clear he, hcv, hpv, require_true, require_false, raise_of_clear he]

theorem exec_ser_of_error (he : s.err = false) (hcv : s.cv = true) (hpv : s.pv = true)
    (hs : serialize s.ctab s.packbuf s.pad = .error c) : exec .ser s = .next (s.failed c) := by
  simp only [exec, execSer, unlessErr_of_clear he, hcv, hpv, hs, require_true, raise_of_clear he]

theorem exec_ser_of_outFull (he : s.err = false) (hcv : s.cv = true) (hpv : s.pv = true)
    (hs : serialize s.ctab s.packbuf s.pad = .ok blob) (hfull : s.cfg.outCap < blob.length) :
    exec .ser s = .next (s.failed .outFull) := by
  simp only [exec, execSer, unlessErr_of_clear he, hcv, hpv, hs, hfull.not_ge, decide_false, require_true,
    require_false, raise_of_clear he]

end

/-- Settles O39: a lemma on SER for each way its checks go, and what `serialize` gives in each. -/
theorem serChecksInOrder : Obligations.SerChecksInOrder := by
  refine ⟨rejectsBadFields_of_row fun o a f h => ⟨.ser, by simp [opRow, h]⟩, fun s =>
    ⟨rfl, fun he => exec_of_err he _ nofun nofun nofun, exec_ser_of_noTable, exec_ser_of_noPacked,
      fun he hcv hpv hnil hbits => exec_ser_of_error he hcv hpv ?_, fun he hcv hpv hne hrange =>
      exec_ser_of_error he hcv hpv (serialize_of_unstorable hne hrange _), fun blob he hcv hpv hs =>
      ⟨exec_ser_of_outFull he hcv hpv hs, exec_ser_of_blob he hcv hpv hs⟩, fun he hcv hpv hnil hbits hfit =>
      exec_ser_of_blob he hcv hpv ?_ hfit⟩⟩
  · rw [hnil, serialize_nil, if_neg hbits]
  · rw [hnil, serialize_nil, if_pos hbits]

end Sys2Proof.Machine

/-! ## Family other: DRAIN (R79, R146) -/

namespace Sys2Proof.Machine

/-- The state after DRAIN with ERR = 0: OUTPOS at the end of OUT, a response for each byte left, and one that finds
none. -/
def State.drained (s : State) : State :=
  { s with
      outpos := BitVec.ofNat 32 s.outbuf.length,
      responses := s.responses ++
        (s.outbuf.drop s.outpos.toNat).map (fun b => responseWord (statusWord s) true (BitVec.ofNat 32 b.toNat)) ++
        [responseWord (statusWord s) false 0] }

section
variable {s : State}

theorem drained_at_end (h : s.outpos.toNat = s.outbuf.length) : s.answered false 0 = s.drained := by
  have hpos : BitVec.ofNat 32 s.outbuf.length = s.outpos := by rw [← h, BitVec.ofNat_toNat, BitVec.setWidth_eq]
  rw [State.drained, hpos, h, List.drop_length, List.map_nil, List.append_nil]
  rfl

/-- One OUTPOP of a byte does not change what DRAIN ends in. -/
theorem drained_of_byte {b : Byte} (hb : s.outbuf[s.outpos.toNat]? = some b) (hlen : s.outbuf.length < 2 ^ 32) :
    (s.advanceOut.answered true (b.zeroExtend 32)).drained = s.drained := by
  obtain ⟨hlt, hbyte⟩ := List.getElem?_eq_some_iff.1 hb
  have hpos : (s.advanceOut.answered true (b.zeroExtend 32)).outpos.toNat = s.outpos.toNat + 1 :=
    advanceOut_outpos_toNat (by omega)
  rw [State.drained, State.drained, hpos, List.drop_eq_getElem_cons hlt, hbyte, List.map_cons]
  simp only [State.answered_responses, State.advanceOut_responses, BitVec.ofNat_toNat, List.append_assoc,
    List.singleton_append]
  rfl

/-- With `n` bytes left the loop makes `n + 1` passes under any bound that allows them, and a list of as many OUTPOPs
has the loop's effect. -/
theorem drain_of_left (n : Nat) (he : s.err = false) (hlen : s.outbuf.length < 2 ^ 32)
    (hn : s.outpos.toNat + n = s.outbuf.length) :
    (∀ more, drainLoop (n + 1 + more) s = .next s.drained) ∧
      runCommands (List.replicate (n + 1) .outpop) s = .next s.drained := by
  induction n generalizing s with
  | zero =>
    have hpass := exec_outpop_at_end he hn.ge
    rw [← drained_at_end hn]
    exact ⟨fun more => (Nat.add_comm _ more) ▸ drainLoop_stop more hpass, runCommands_cons hpass⟩
  | succ n ih =>
    have hb : s.outbuf[s.outpos.toNat]? = some s.outbuf[s.outpos.toNat] := List.getElem?_eq_getElem (by omega)
    have hpass := exec_outpop_of_byte he hb
    have hpos : s.advanceOut.outpos.toNat = s.outpos.toNat + 1 := advanceOut_outpos_toNat (by omega)
    obtain ⟨hloop, hlist⟩ := ih (s := s.advanceOut.answered true (s.outbuf[s.outpos.toNat].zeroExtend 32)) he hlen
      (by rw [State.answered_outpos, State.answered_outbuf, State.advanceOut_outbuf, hpos]; omega)
    rw [drained_of_byte hb hlen] at hloop hlist
    refine ⟨fun more => ?_, ?_⟩
    · rw [show n + 1 + 1 + more = n + 1 + more + 1 by omega, drainLoop_more _ hpass, hloop]
    · rw [List.replicate_succ, runCommands_cons hpass, hlist]

end

/-- Settles O49, by `drain_of_left` with ERR = 0; with ERR = 1 the first OUTPOP is dropped and the loop stops there. -/
theorem drainReturnsTheRestOfOut : Obligations.DrainReturnsTheRestOfOut := by
  intro s h
  rcases Bool.eq_false_or_eq_true s.err with he | he
  · have hpass : exec .outpop s = .next (s.answered false 0) := exec_of_err he .outpop nofun nofun nofun
    have hdrain : drain s = .next (s.answered false 0) := drainLoop_stop _ hpass
    refine ⟨fun more => ?_, ?_, fun _ => hdrain, fun he' => absurd (he.symm.trans he') nofun⟩
    · rw [hdrain, Nat.add_right_comm, drainLoop_stop _ hpass]
    · rw [hdrain, drainCommands, if_pos he, runCommands_cons hpass]
      rfl
  · obtain ⟨hloop, hlist⟩ := drain_of_left (s.outbuf.length - s.outpos.toNat) he h.outbuf_lt
      (Nat.add_sub_cancel' h.outposFits)
    have hdrain : drain s = .next s.drained := hloop 0
    refine ⟨fun more => (hloop more).trans hdrain.symm, ?_, fun he' => absurd (he.symm.trans he') nofun,
      fun _ => hdrain⟩
    rw [hdrain, drainCommands, if_neg (by simp [he]), hlist]

end Sys2Proof.Machine

/-! ## Family other: runs of commands, and the round trip (R161, R165) -/

namespace Sys2Proof.Machine

section
variable {s : State}

/-! ### Runs of one command over a list -/

theorem exec_enc_of_code {b : Byte} {c : Bits} (he : s.err = false) (hcv : s.cv = true)
    (hc : lookupCode b s.ctab = some c) (hroom : s.bitseq.length + c.length ≤ s.cfg.bitCap) :
    exec (.enc b) s = .next ((s.setBits (s.bitseq ++ c)).answered false 0) := by
  rw [exec_enc_of_clear he, if_pos hcv, hc]
  exact if_pos hroom

/-- ENC of a byte string appends the codes of the bytes, and gives a response for each (R161). -/
theorem runCommands_encstr (d : List Byte) (he : s.err = false) (hcv : s.cv = true)
    (hd : ∀ b ∈ d, b ∈ s.ctab.map fun e => e.sym)
    (hroom : s.bitseq.length + (encodeAll s.ctab d).length ≤ s.cfg.bitCap) :
    runCommands (expand (.encstr d)) s = .next
      { s with
          bitseq := s.bitseq ++ encodeAll s.ctab d,
          responses := s.responses ++ List.replicate d.length (responseWord (statusWord s) false 0) } := by
  induction d generalizing s with
  | nil =>
    rw [encodeAll_nil, List.append_nil, List.length_nil, List.replicate_zero, List.append_nil]
    rfl
  | cons b d ih =>
    obtain ⟨hb, hd⟩ := List.forall_mem_cons.1 hd
    obtain ⟨c, hc⟩ := lookupCode_isSome hb
    rw [encodeAll_cons, hc, Option.getD_some] at hroom ⊢
    rw [List.length_append] at hroom
    have hroom' : (s.bitseq ++ c).length + (encodeAll s.ctab d).length ≤ s.cfg.bitCap := by
      rw [List.length_append]
      omega
    have hrest := ih (s := (s.setBits (s.bitseq ++ c)).answered false 0) he hcv hd hroom'
    refine (runCommands_cons (exec_enc_of_code he hcv hc (by omega))).trans (hrest.trans ?_)
    simp [State.answered, State.setBits, statusWord, List.replicate_succ]

/-- SYMPUSH of the entries of a list that SYMLIST can hold appends them (R101). -/
theorem runCommands_symtab (L : List SymEntry) (he : s.err = false) (hL : SymlistOk (s.symlist ++ L)) :
    ∃ responses, runCommands (expand (.symtab L)) s = .next
      { s with symlist := s.symlist ++ L, responses := responses } := by
  induction L generalizing s with
  | nil =>
    rw [List.append_nil]
    exact ⟨s.responses, rfl⟩
  | cons e L ih =>
    have hknown : ¬ symKnown e.sym s.symlist = true := fun hk => by
      obtain ⟨x, hx, heq⟩ := symKnown_iff.1 hk
      have hdistinct := hL.distinct
      rw [List.map_append, List.nodup_append] at hdistinct
      exact hdistinct.2.2 _ (List.mem_map_of_mem hx) e.sym (by simp) heq
    have hlast : ¬ aboveLast e.freq s.symlist = true := fun ha => by
      obtain ⟨x, hx, hlt⟩ := aboveLast_iff.1 ha
      have hle := (List.pairwise_append.1 hL.sorted).2.2 x (List.mem_of_getLast? hx) e (by simp)
      omega
    have hpush : exec (.sympush e.sym e.freq) s = .next ((s.pushSym e).answered false 0) := by
      rw [exec_sympush_of_clear he, if_neg hknown, if_neg hlast]
    obtain ⟨responses, hrun⟩ := ih (s := (s.pushSym e).answered false 0) he
      (by simpa [State.answered, State.pushSym] using hL)
    refine ⟨responses, (runCommands_cons hpush).trans (hrun.trans ?_)⟩
    simp [State.answered, State.pushSym]

/-- INPUSH of the bytes of a blob that fits appends them to IN (R139). -/
theorem runCommands_pushblob (blob : List Byte) (he : s.err = false)
    (hroom : s.inbuf.length + blob.length ≤ s.cfg.inCap) :
    ∃ responses, runCommands (expand (.pushblob blob)) s = .next
      { s with inbuf := s.inbuf ++ blob, responses := responses } := by
  induction blob generalizing s with
  | nil =>
    rw [List.append_nil]
    exact ⟨s.responses, rfl⟩
  | cons b blob ih =>
    rw [List.length_cons] at hroom
    have hpush : exec (.inpush b) s = .next ((s.pushIn b).answered false 0) := by
      rw [exec_inpush_of_clear he, if_pos (by omega)]
    obtain ⟨responses, hrun⟩ := ih (s := (s.pushIn b).answered false 0) he
      (by simp only [State.answered_inbuf, State.pushIn_inbuf, List.length_append, List.length_singleton,
            State.answered_cfg, State.pushIn_cfg]; omega)
    refine ⟨responses, (runCommands_cons hpush).trans (hrun.trans ?_)⟩
    simp [State.answered, State.pushIn]

end

/-- Settles O51, by `runCommands_encstr`. -/
theorem encodingAStringAppendsItsCodes : Obligations.EncodingAStringAppendsItsCodes :=
  fun d _ he hcv hd hroom => ⟨_, runCommands_encstr d he hcv hd hroom, rfl⟩

/-! ### The round trip (R165, R212) -/

section
variable {s t u : State} {a b : List Instr}

/-- Two runs one after the other. -/
theorem runCommands_trans (ha : runCommands a s = .next t) (hb : runCommands b t = .next u) :
    runCommands (a ++ b) s = .next u := (runCommands_append ha).trans hb

theorem runCommands_singleton {i : Instr} (h : exec i s = .next t) : runCommands [i] s = .next t := runCommands_cons h

theorem exec_extract_of_tree (he : s.err = false) (htv : s.tv = true) :
    exec .extract s = .next ((s.setTable (extract s.tree)).answered false 0) := by
  rw [exec_extract_of_clear he, if_pos htv]

theorem runCommands_build_extract {tree : CodeTree} (he : s.err = false) (hb : build s.symlist = some tree) :
    ∃ responses, runCommands [.build, .extract] s = .next
      { s with tree := tree, tv := true, ctab := extract tree, cv := true, responses := responses } :=
  ⟨_, (runCommands_cons (exec_build_of_tree he hb)).trans (runCommands_singleton (exec_extract_of_tree he rfl))⟩

/-- FINISH packs BITSEQ and writes the container (R79). -/
theorem runCommands_finish {blob : List Byte} (he : s.err = false) (hcv : s.cv = true)
    (hs : serialize s.ctab (packBytes s.bitseq) (BitVec.ofNat 8 (padCount s.bitseq.length)) = .ok blob)
    (hfit : blob.length ≤ s.cfg.outCap) :
    runCommands (expand .finish) s = .next
      ((((s.setPacked (packBytes s.bitseq) (BitVec.ofNat 8 (padCount s.bitseq.length))).answered false 0).setOut
        blob).answered false 0) :=
  (runCommands_cons (exec_pack_of_clear he)).trans
    (runCommands_singleton (exec_ser_of_blob (by exact he) (by exact hcv) rfl hs hfit))

/-- DECOMPRESS reads the container in IN, unpacks its bits and decodes them (R79). -/
theorem runCommands_decompress {ct : List CodeEntry} {D : CodeTree} {P out : List Byte} {p : Byte} {B : Bits}
    (he : s.err = false) (hparse : parseContainer s.inbuf = .ok (ct, D, P, p)) (hB : unpackBits P p.toNat = B)
    (hcap : B.length ≤ s.cfg.bitCap) (hout : decodeBits D B = .ok out) (hfit : out.length ≤ s.cfg.outCap) :
    ∃ t, runCommands (expand .decompress) s = .next t ∧ t.err = false ∧ t.outbuf = out ∧ t.outpos = 0 := by
  have hunpack := exec_unpack_of_bits (s := (s.commitContainer ct D P p).answered false 0) he rfl
    (pad_of_parseContainer hparse).1 hB hcap
  have hdec := exec_dec_of_ok (s := (((s.commitContainer ct D P p).answered false 0).setBits B).answered false 0) he rfl
    (decodeTree_of_parseContainer hparse) hout
  exact ⟨_, (runCommands_cons (exec_deser_of_ok he hparse)).trans ((runCommands_cons hunpack).trans
    (runCommands_singleton (hdec.trans (if_pos hfit)))), he, rfl, rfl⟩

end

section
variable {ct : List CodeEntry} {B : Bits} {blob : List Byte}

theorem encodeAll_no_entries (d : List Byte) : encodeAll [] d = [] := List.flatMap_eq_nil_iff.2 fun _ _ => rfl

/-- A table that meets R24 and packed bits make a container; an empty table has no bits (R137, R138). -/
theorem serialize_packBytes (hok : TableOk ct) (hB : ct = [] → B = []) :
    ∃ blob, serialize ct (packBytes B) (BitVec.ofNat 8 (padCount B.length)) = .ok blob := by
  by_cases hne : ct = []
  · obtain rfl := hB hne
    subst hne
    exact ⟨[0, 0, 0], rfl⟩
  · have hcount := hok.count
    have hpad := padCount_range B.length
    rw [← padCount_toNat] at hpad
    exact ⟨_, serialize_of_storable hne (by omega) hpad hok.lengths _⟩

/-- Reading the container of packed bits gives the table, its decode tree and the bits (R147, R126). -/
theorem parseContainer_packBytes (hok : TableOk ct) (hB : ct = [] → B = [])
    (hs : serialize ct (packBytes B) (BitVec.ofNat 8 (padCount B.length)) = .ok blob) :
    ∃ D P p, parseContainer blob = .ok (ct, D, P, p) ∧ unpackBits P p.toNat = B := by
  have hlen := packed_bits_length B
  obtain ⟨D, -, hparse⟩ := containerRoundTrip ct _ _ blob hok (by rw [padCount_toNat]; omega) hs
  by_cases hne : ct = []
  · rw [if_pos hne, ← hne] at hparse
    exact ⟨D, [], 0, hparse, (hB hne).symm⟩
  · rw [if_neg hne] at hparse
    exact ⟨D, _, _, hparse, by rw [padCount_toNat, unpackBits_packBytes]⟩

end

section
variable {c : Config} {table : List SymEntry} {tree : CodeTree} {d blob : List Byte}

/-- Compressing from reset: the symbols build the tree, its table encodes the bytes, and SER writes the container. -/
theorem compress_completes (hL : SymlistOk table) (hb : build table = some tree)
    (hd : ∀ b ∈ d, b ∈ (extract tree).map fun e => e.sym) (hbits : (encodeAll (extract tree) d).length ≤ c.bitCap)
    (hs : serialize (extract tree) (packBytes (encodeAll (extract tree) d))
      (BitVec.ofNat 8 (padCount (encodeAll (extract tree) d).length)) = .ok blob) (hfit : blob.length ≤ c.outCap) :
    ∃ s, runCommands (compressCommands table d) (State.resetWith c) = .next s ∧ s.err = false ∧ s.outbuf = blob := by
  have hclear : runCommands [.clear] (State.resetWith c) = .next ((State.resetWith c).answered false 0) :=
    runCommands_singleton (succeed_eq _)
  obtain ⟨responses, hsymtab⟩ := runCommands_symtab (s := (State.resetWith c).answered false 0) table rfl hL
  have hpushed := runCommands_trans hclear hsymtab
  obtain ⟨_, htable⟩ := runCommands_build_extract (s := { (State.resetWith c).answered false 0 with
    symlist := table, responses := responses }) rfl hb
  have hcoded := runCommands_trans (runCommands_trans hpushed htable)
    (runCommands_encstr d rfl rfl hd ((Nat.zero_add _).trans_le hbits))
  exact ⟨_, runCommands_trans hcoded (runCommands_finish rfl rfl hs hfit), rfl, rfl⟩

/-- Decompressing a container on a fresh block that has room for it, its bits and its bytes. -/
theorem decompress_completes {ct : List CodeEntry} {D : CodeTree} {P : List Byte} {p : Byte} {B : Bits}
    (hparse : parseContainer blob = .ok (ct, D, P, p)) (hB : unpackBits P p.toNat = B) (hin : blob.length ≤ c.inCap)
    (hbits : B.length ≤ c.bitCap) (hout : decodeBits D B = .ok d) (hfit : d.length ≤ c.outCap) :
    ∃ t, runCommands (decompressCommands blob) (State.resetWith c) = .next t ∧ t.err = false ∧ t.outbuf = d ∧
      t.outpos = 0 := by
  have hclear : runCommands [.clear] (State.resetWith c) = .next ((State.resetWith c).answered false 0) :=
    runCommands_singleton (succeed_eq _)
  obtain ⟨responses, hpush⟩ := runCommands_pushblob (s := (State.resetWith c).answered false 0) blob rfl
    ((Nat.zero_add _).trans_le hin)
  obtain ⟨t, hrun, ht⟩ := runCommands_decompress (s := { (State.resetWith c).answered false 0 with
    inbuf := blob, responses := responses }) rfl hparse hB hbits hout hfit
  exact ⟨t, runCommands_trans (runCommands_trans hclear hpush) hrun, ht⟩

end

/-- Settles O59: the two halves by `compress_completes` and `decompress_completes`, the container between them by
`parseContainer_packBytes`, and the bytes by `decodeBits_encodeAll`. -/
theorem decompressInvertsCompress : Obligations.DecompressInvertsCompress := by
  intro c table tree d _ hL hb hd hbits hout hin hfit
  have hok := tableOk_extract (treeOk_of_build hL hb)
  have hsyms : ∀ b ∈ d, b ∈ (extract tree).map fun e => e.sym := by
    rwa [extract_syms, leaves_of_build hL.sorted hb]
  have hB : extract tree = [] → encodeAll (extract tree) d = [] := fun h => h ▸ encodeAll_no_entries d
  obtain ⟨blob, hblob⟩ := serialize_packBytes hok hB
  rw [← serialize_length hblob] at hout hin
  obtain ⟨D, P, p, hparse, hunpack⟩ := parseContainer_packBytes hok hB hblob
  have hdecode := decodeBits_encodeAll hok.code_ne_nil (decodeTree_of_parseContainer hparse) hsyms
  obtain ⟨s, hs, hserr, rfl⟩ := compress_completes hL hb hsyms hbits hblob hout
  obtain ⟨t, ht, hterr, houtbuf, houtpos⟩ := decompress_completes hparse hunpack hin hbits hdecode hfit
  exact ⟨s, t, hs, hserr, ht, hterr, houtbuf, houtpos⟩

end Sys2Proof.Machine
